-- ==== Sys2Proof/Word.lean ====
section
/-! DEFINITION. The one unit of data of this hardware: the byte (spec/00_scope.md R10, R11). -/

namespace Sys2Proof

/-- A byte: 8 bits, unsigned, bit 7 the most significant (R10, R11). -/
abbrev Byte := BitVec 8

/-- `n` zero bytes, the blank columns of a clear: `rep(0x00, n)` of R11. Irreducible,
so that no proof unfolds hundreds of zeros by accident; the kernel evaluates it all the same. -/
@[irreducible] def blanks (n : Nat) : List Byte := List.replicate n 0x00#8

@[simp] theorem length_blanks (n : Nat) : (blanks n).length = n := by
  unfold blanks
  exact List.length_replicate

end Sys2Proof
end

