-- ==== Sys2Proof/Syntax.lean ====
section
/-! DEFINITION. The host commands: one constructor for each row of spec/opcode_table.json, its operands
as the bytes spec/30_encoding.md R92 names. -/

namespace Sys2Proof

/-- A command of the opcode map (R92). The suffix `B` marks a buffer-backed variant (`.B` in the table).
Every operand is one byte (D24) but `text`, a string payload without its terminator (R96). -/
inductive Instr where
  /-- `01`: `initialize()` (R120). -/
  | init
  /-- `02 col page`: `setPosition` (R130). -/
  | setpos (col page : Byte)
  /-- `03 col row`: `setPositionByCharacterCell` (R132). -/
  | setcell (col row : Byte)
  /-- `04 page`: `setPage` (R134). -/
  | setpage (page : Byte)
  /-- `10 code`: `writeChar` (R141). -/
  | wchar (code : Byte)
  /-- `11 text 00`: `writeString` (R143). -/
  | wstr (text : List Byte)
  /-- `12 ordinal`: `writeIcon` (R145). -/
  | wicon (ordinal : Byte)
  /-- `13 value`: `writeHexByte` (R147). -/
  | whex (value : Byte)
  /-- `14 lo hi dir`: `writeBitGraph` (R149). -/
  | wbits (lo hi dir : Byte)
  /-- `15 line`: `clearRegion` (R160). -/
  | clrline (line : Byte)
  /-- `16`: `clearAll()` (R162). -/
  | clrall
  /-- `17`: `fillAllWithJunk()` (R164). -/
  | junk
  /-- `18 code half`: `writeBigNumeral` (R171). -/
  | wbignum (code half : Byte)
  /-- `19 x y text 00`: `writeBigString` (R173). -/
  | wbigstr (x y : Byte) (text : List Byte)
  /-- `1A from to`: `renderFramebufferRange` (R180). -/
  | render (fromPage toPage : Byte)
  /-- `90 col page code` (R142). -/
  | wcharB (col page code : Byte)
  /-- `91 col page text 00` (R150). -/
  | wstrB (col page : Byte) (text : List Byte)
  /-- `92 col page ordinal` (R146). -/
  | wiconB (col page ordinal : Byte)
  /-- `93 col page value` (R151). -/
  | whexB (col page value : Byte)
  /-- `94 col page lo hi dir` (R152). -/
  | wbitsB (col page lo hi dir : Byte)
  /-- `95 line` (R161). -/
  | clrlineB (line : Byte)
  /-- `96` (R163). -/
  | clrallB
  /-- `98 col page code half` (R172). -/
  | wbignumB (col page code half : Byte)
  /-- `99 x y text 00` (R174). -/
  | wbigstrB (x y : Byte) (text : List Byte)
  deriving DecidableEq, Repr

end Sys2Proof
end

