-- ==== Sys2Proof/WellFormed.lean ====
section
/-! DEFINITION. Which commands a byte stream can spell: a string payload holds no terminator byte
(spec/30_encoding.md R96, R100); every other operand byte may have any value (R100). -/

namespace Sys2Proof

/-- The string terminator `STR_TERM` (R96, D3). -/
abbrev strTerm : Byte := 0x00#8

/-- A string payload "cannot contain a zero byte" (R96). -/
def textOk (text : List Byte) : Bool := text.all (· ≠ strTerm)

/-- The commands the encoding can spell (R96, R100). -/
def Instr.wellFormed : Instr → Bool
  | .init => true
  | .setpos _ _ => true
  | .setcell _ _ => true
  | .setpage _ => true
  | .wchar _ => true
  | .wstr text => textOk text
  | .wicon _ => true
  | .whex _ => true
  | .wbits _ _ _ => true
  | .clrline _ => true
  | .clrall => true
  | .junk => true
  | .wbignum _ _ => true
  | .wbigstr _ _ text => textOk text
  | .render _ _ => true
  | .wcharB _ _ _ => true
  | .wstrB _ _ text => textOk text
  | .wiconB _ _ _ => true
  | .whexB _ _ _ => true
  | .wbitsB _ _ _ _ _ => true
  | .clrlineB _ => true
  | .clrallB => true
  | .wbignumB _ _ _ _ => true
  | .wbigstrB _ _ text => textOk text

end Sys2Proof
end

