-- ==== Sys2Proof/Decode.lean ====
section
/-! DEFINITION. The command decoder and, after it, the encoder, both from spec/30_encoding.md:
R91 and R92 (opcodes and operand order), R96 (strings), R97 (formats), R98 (reserved opcodes),
R99 (big-numeral opcodes keep their lengths whatever HAS_BIG is), R101 (partial commands). -/

namespace Sys2Proof

/-- What the decoder makes of the bytes at its port. -/
inductive Decoded where
  /-- a whole command, and the bytes after it -/
  | instr (i : Instr) (rest : List Byte)
  /-- a reserved opcode, a command of length 1 (R98), and the bytes after it -/
  | reserved (opcode : Byte) (rest : List Byte)
  /-- the bytes are only the beginning of a command, or none at all (R101) -/
  | incomplete
  deriving DecidableEq, Repr

/-- The bytes before the first terminator and the bytes after it; `none` while no terminator has
arrived (R96, R101). -/
def splitText : List Byte → Option (List Byte × List Byte)
  | [] => none
  | b :: rest =>
    if b = strTerm then some ([], rest)
    else match splitText rest with
      | some (text, after) => some (b :: text, after)
      | none => none

/-- Format `F1` (R97): one operand byte. -/
def format1 (mk : Byte → Instr) : List Byte → Decoded
  | a :: rest => .instr (mk a) rest
  | _ => .incomplete

/-- Format `F2` (R97): two operand bytes. -/
def format2 (mk : Byte → Byte → Instr) : List Byte → Decoded
  | a :: b :: rest => .instr (mk a b) rest
  | _ => .incomplete

/-- Format `F3` (R97): three operand bytes. -/
def format3 (mk : Byte → Byte → Byte → Instr) : List Byte → Decoded
  | a :: b :: c :: rest => .instr (mk a b c) rest
  | _ => .incomplete

/-- Format `F4` (R97): four operand bytes. -/
def format4 (mk : Byte → Byte → Byte → Byte → Instr) : List Byte → Decoded
  | a :: b :: c :: d :: rest => .instr (mk a b c d) rest
  | _ => .incomplete

/-- Format `F5` (R97): five operand bytes. -/
def format5 (mk : Byte → Byte → Byte → Byte → Byte → Instr) : List Byte → Decoded
  | a :: b :: c :: d :: e :: rest => .instr (mk a b c d e) rest
  | _ => .incomplete

/-- Format `S0` (R97): text and terminator. -/
def formatS0 (mk : List Byte → Instr) (bytes : List Byte) : Decoded :=
  match splitText bytes with
  | some (text, rest) => .instr (mk text) rest
  | none => .incomplete

/-- Format `S2` (R97): two operand bytes, text and terminator. -/
def formatS2 (mk : Byte → Byte → List Byte → Instr) : List Byte → Decoded
  | a :: b :: bytes => formatS0 (mk a b) bytes
  | _ => .incomplete

/-- The command whose opcode byte is `op` and whose further bytes begin `rest` (R92, R97, R98). -/
def decodeOp (op : Byte) (rest : List Byte) : Decoded :=
  match op with
  | 0x01#8 => .instr .init rest
  | 0x02#8 => format2 .setpos rest
  | 0x03#8 => format2 .setcell rest
  | 0x04#8 => format1 .setpage rest
  | 0x10#8 => format1 .wchar rest
  | 0x11#8 => formatS0 .wstr rest
  | 0x12#8 => format1 .wicon rest
  | 0x13#8 => format1 .whex rest
  | 0x14#8 => format3 .wbits rest
  | 0x15#8 => format1 .clrline rest
  | 0x16#8 => .instr .clrall rest
  | 0x17#8 => .instr .junk rest
  | 0x18#8 => format2 .wbignum rest
  | 0x19#8 => formatS2 .wbigstr rest
  | 0x1A#8 => format2 .render rest
  | 0x90#8 => format3 .wcharB rest
  | 0x91#8 => formatS2 .wstrB rest
  | 0x92#8 => format3 .wiconB rest
  | 0x93#8 => format3 .whexB rest
  | 0x94#8 => format5 .wbitsB rest
  | 0x95#8 => format1 .clrlineB rest
  | 0x96#8 => .instr .clrallB rest
  | 0x98#8 => format4 .wbignumB rest
  | 0x99#8 => formatS2 .wbigstrB rest
  | _ => .reserved op rest

/-- The first command of a byte stream: total, and a reserved opcode is rejected by name (R90, R98). -/
def decode : List Byte → Decoded
  | [] => .incomplete
  | op :: rest => decodeOp op rest

/-- The opcode byte of each command, from the opcode map of R92. -/
def opcodeOf : Instr → Byte
  | .init => 0x01#8
  | .setpos _ _ => 0x02#8
  | .setcell _ _ => 0x03#8
  | .setpage _ => 0x04#8
  | .wchar _ => 0x10#8
  | .wstr _ => 0x11#8
  | .wicon _ => 0x12#8
  | .whex _ => 0x13#8
  | .wbits _ _ _ => 0x14#8
  | .clrline _ => 0x15#8
  | .clrall => 0x16#8
  | .junk => 0x17#8
  | .wbignum _ _ => 0x18#8
  | .wbigstr _ _ _ => 0x19#8
  | .render _ _ => 0x1A#8
  | .wcharB _ _ _ => 0x90#8
  | .wstrB _ _ _ => 0x91#8
  | .wiconB _ _ _ => 0x92#8
  | .whexB _ _ _ => 0x93#8
  | .wbitsB _ _ _ _ _ => 0x94#8
  | .clrlineB _ => 0x95#8
  | .clrallB => 0x96#8
  | .wbignumB _ _ _ _ => 0x98#8
  | .wbigstrB _ _ _ => 0x99#8

/-- The bytes of each command after its opcode, in the order of R92, a string with its terminator. -/
def operandBytes : Instr → List Byte
  | .init => []
  | .setpos col page => [col, page]
  | .setcell col row => [col, row]
  | .setpage page => [page]
  | .wchar code => [code]
  | .wstr text => text ++ [strTerm]
  | .wicon ordinal => [ordinal]
  | .whex value => [value]
  | .wbits lo hi dir => [lo, hi, dir]
  | .clrline line => [line]
  | .clrall => []
  | .junk => []
  | .wbignum code half => [code, half]
  | .wbigstr x y text => x :: y :: (text ++ [strTerm])
  | .render fromPage toPage => [fromPage, toPage]
  | .wcharB col page code => [col, page, code]
  | .wstrB col page text => col :: page :: (text ++ [strTerm])
  | .wiconB col page ordinal => [col, page, ordinal]
  | .whexB col page value => [col, page, value]
  | .wbitsB col page lo hi dir => [col, page, lo, hi, dir]
  | .clrlineB line => [line]
  | .clrallB => []
  | .wbignumB col page code half => [col, page, code, half]
  | .wbigstrB x y text => x :: y :: (text ++ [strTerm])

/-- The bytes of a command on the host port (R90, R92). -/
def encode (i : Instr) : List Byte := opcodeOf i :: operandBytes i

/-- The length of each command in bytes: the "length" column of R92. -/
def lengthOf : Instr → Nat
  | .init => 1
  | .setpos _ _ => 3
  | .setcell _ _ => 3
  | .setpage _ => 2
  | .wchar _ => 2
  | .wstr text => 2 + text.length
  | .wicon _ => 2
  | .whex _ => 2
  | .wbits _ _ _ => 4
  | .clrline _ => 2
  | .clrall => 1
  | .junk => 1
  | .wbignum _ _ => 3
  | .wbigstr _ _ text => 4 + text.length
  | .render _ _ => 3
  | .wcharB _ _ _ => 4
  | .wstrB _ _ text => 4 + text.length
  | .wiconB _ _ _ => 4
  | .whexB _ _ _ => 4
  | .wbitsB _ _ _ _ _ => 6
  | .clrlineB _ => 2
  | .clrallB => 1
  | .wbignumB _ _ _ _ => 5
  | .wbigstrB _ _ text => 4 + text.length

/-- The sink select bit `B` of an opcode byte (R91): set for a buffer-backed variant. -/
def sinkBit (op : Byte) : Bool := op.getLsbD 7

/-- The operation number `op`, bits 6 to 0 of an opcode byte (R91). -/
def operationNumber (op : Byte) : Byte := op &&& 0x7F#8

/-- The assembler's `WBITS value16, msb|lsb` (R103): the 16-bit operand split low byte first, `msb`
encoded 0x01 and `lsb` 0x00. -/
def asmWbits (value16 : BitVec 16) (msb : Bool) : Instr :=
  .wbits (value16.setWidth 8) ((value16 >>> 8).setWidth 8) (if msb then 0x01#8 else 0x00#8)

/-- The assembler's `WBITS.B col, page, value16, msb|lsb` (R103). -/
def asmWbitsB (col page : Byte) (value16 : BitVec 16) (msb : Bool) : Instr :=
  .wbitsB col page (value16.setWidth 8) ((value16 >>> 8).setWidth 8) (if msb then 0x01#8 else 0x00#8)

/-! ### Words numbered as spec/opcode_table.json numbers them -/

/-- `n` bytes of the number `w`, the least significant first: the opcode byte is byte 0. -/
def wordBytes : Nat → Nat → List Byte
  | 0, _ => []
  | n + 1, w => BitVec.ofNat 8 w :: wordBytes n (w / 256)

/-- The bytes of an instruction whose first `nbits` bits are `w` and whose further bytes are zero, as
many as the longest fixed format can need (six bytes, R97). -/
def paddedWordBytes (nbits w : Nat) : List Byte :=
  wordBytes ((nbits + 7) / 8) (w % 2 ^ nbits) ++ [0x00#8, 0x00#8, 0x00#8, 0x00#8, 0x00#8, 0x00#8]

/-- Exactly the bytes of the command that `paddedWordBytes nbits w` begins with: what the decoder
consumes of them. -/
def commandBytes (nbits w : Nat) : List Byte :=
  match decode (paddedWordBytes nbits w) with
  | .instr _ rest => (paddedWordBytes nbits w).take ((paddedWordBytes nbits w).length - rest.length)
  | .reserved op _ => [op]
  | .incomplete => paddedWordBytes nbits w

/-- The instruction the decoder reads from a table word; `none` where it refuses (a reserved opcode). -/
def decodeTableWord (nbits w : Nat) : Option Instr :=
  match decode (paddedWordBytes nbits w) with
  | .instr i _ => some i
  | .reserved _ _ => none
  | .incomplete => none

end Sys2Proof
end

