-- ==== Sys2Proof/Config.lean ====
section
/-! DEFINITION. What an implementation fixes (spec/00_scope.md R16: ROM contents, panel command bytes,
options) and the values the spec leaves free. A state holds the configuration it runs under (log 3);
the power-on state holds the opaque `Config.implementation`. -/

namespace Sys2Proof

/-- The two states of the data/command selector (spec/10_state.md R35). -/
inductive Channel where
  | cmd
  | data
  deriving DecidableEq, Repr, Inhabited

/-- The big-numeral tables and their top offset, present only with HAS_BIG (spec/20_memory.md R57). -/
structure BigTables where
  /-- `BIG_CHARS`, `N_BIG` bytes -/
  chars : List Byte
  /-- `BIG_LEN`, the column count of each entry, 0 to 255 -/
  lens : List Byte
  /-- `BIG_DATA`, two bytes for each column of each entry, entries packed in table order -/
  data : List Byte
  /-- `BIG_TOP_OFFSET`: which interleave offset holds the top half (D15) -/
  topOffset : Fin 2
  deriving DecidableEq, Repr

/-- The two durations of the reset pulse, present only with HAS_RESET_PULSE (spec/40_init.md R120, R122). -/
structure ResetPulse where
  /-- `T_RESET_ASSERT_MS` -/
  assertMs : Nat
  /-- `T_RESET_RELEASE_MS` -/
  releaseMs : Nat
  deriving DecidableEq, Repr

/-- The parameters of R16 that the source leaves open. -/
structure Params where
  /-- `FONT` (R54) -/
  font : List Byte
  /-- `N_ICONS - 1`: the icons after ordinal 0, "Track"; `N_ICONS` is at least 1 (R16, R55) -/
  iconsAfterTrack : Nat
  /-- `ICON` (R55) -/
  icon : List Byte
  /-- `TINY_ONE` (R56) -/
  tinyOne : List Byte
  /-- `TINY_ZERO` (R56) -/
  tinyZero : List Byte
  /-- HAS_BIG and, if so, the big-numeral tables (R3, R57) -/
  big : Option BigTables
  /-- `CMD_FUNC_EXT` (spec/40_init.md R121) -/
  funcExt : Byte
  /-- `CMD_BIAS` -/
  bias : Byte
  /-- `CMD_VOP` -/
  vop : Byte
  /-- `CMD_FUNC_BASIC` -/
  funcBasic : Byte
  /-- `CMD_DISP_ALLON` -/
  dispAllOn : Byte
  /-- `CMD_DISP_NORMAL` -/
  dispNormal : Byte
  /-- `PAGE_SEL_BASE` (spec/41_addressing.md R130) -/
  pageSelBase : Byte
  /-- `COL_SEL_BASE` -/
  colSelBase : Byte
  /-- HAS_RESET_PULSE and, if so, its durations (R3) -/
  resetPulse : Option ResetPulse
  /-- HAS_DIAG (R3, spec/10_state.md R26) -/
  hasDiag : Bool
  deriving DecidableEq, Repr

/-- `N_ICONS`. -/
def Params.nIcons (p : Params) : Nat := p.iconsAfterTrack + 1

/-- The sum of the first `n` column counts, `BIG_LEN[0] + ... + BIG_LEN[n-1]` (R57). -/
def columnsBefore : List Byte → Nat → Nat
  | _, 0 => 0
  | [], _ + 1 => 0
  | len :: lens, n + 1 => len.toNat + columnsBefore lens n

/-- A command byte the panel would read as a page select (spec/20_memory.md R71). -/
def Params.isPageSelect (p : Params) (c : Byte) : Bool := c &&& 0xF8#8 == p.pageSelBase

/-- A command byte the panel would read as a column select, were it no page select (R71). -/
def Params.isColSelect (p : Params) (c : Byte) : Bool := c &&& 0x80#8 == p.colSelBase

/-- The table lengths of R16, R54 to R57. -/
def Params.tablesFit (p : Params) : Bool :=
  p.font.length == 490 && p.icon.length == 8 * p.nIcons && p.tinyOne.length == 4 &&
  p.tinyZero.length == 4 &&
  (match p.big with
    | none => true
    | some t => t.lens.length == t.chars.length &&
        t.data.length == 2 * columnsBefore t.lens t.chars.length)

/-- The constraints on the panel command bytes: the masked fields fit under their bases (R16), and the
command classes of R71 do not overlap. That the two function-set bytes differ, that the display bytes
are neither of them, and that no byte is both a page and a column select is DEDUCED from R71's "the
four classes do not overlap" (log 3). -/
def Params.commandsFit (p : Params) : Bool :=
  p.pageSelBase &&& 0x07#8 == 0 && p.colSelBase &&& 0x7F#8 == 0 &&
  p.pageSelBase &&& 0x80#8 != p.colSelBase && p.funcExt != p.funcBasic &&
  [p.funcExt, p.funcBasic, p.dispAllOn, p.dispNormal].all
    (fun c => !p.isPageSelect c && !p.isColSelect c) &&
  [p.dispAllOn, p.dispNormal].all (fun c => c != p.funcExt && c != p.funcBasic)

/-- The constraints on a configuration; one that breaks them is refused (spec/93 U12). -/
def Params.valid (p : Params) : Bool := p.tablesFit && p.commandsFit

/-- Parameters that meet the constraints, with the general-knowledge command bytes of spec/93 U14 and
blank tables. They only show that such parameters exist, and no meaning reads them. -/
def Params.sample : Params where
  font := blanks 490
  iconsAfterTrack := 0
  icon := blanks 8
  tinyOne := blanks 4
  tinyZero := blanks 4
  big := none
  funcExt := 0x21#8
  bias := 0x13#8
  vop := 0xBF#8
  funcBasic := 0x20#8
  dispAllOn := 0x09#8
  dispNormal := 0x0C#8
  pageSelBase := 0x40#8
  colSelBase := 0x80#8
  resetPulse := none
  hasDiag := true

theorem Params.sample_valid : Params.sample.valid = true := by
  have tables : Params.sample.tablesFit = true := by
    simp [Params.tablesFit, Params.sample, Params.nIcons]
  have commands : Params.sample.commandsFit = true := by decide
  simp [Params.valid, tables, commands]

/-- A configuration: parameters that meet the constraints, so that a state cannot hold refused ones
(U12). The field defaults serve only to show Lean that the type has a member. -/
structure Config extends Params where
  font := Params.sample.font
  iconsAfterTrack := Params.sample.iconsAfterTrack
  icon := Params.sample.icon
  tinyOne := Params.sample.tinyOne
  tinyZero := Params.sample.tinyZero
  big := Params.sample.big
  funcExt := Params.sample.funcExt
  bias := Params.sample.bias
  vop := Params.sample.vop
  funcBasic := Params.sample.funcBasic
  dispAllOn := Params.sample.dispAllOn
  dispNormal := Params.sample.dispNormal
  pageSelBase := Params.sample.pageSelBase
  colSelBase := Params.sample.colSelBase
  resetPulse := Params.sample.resetPulse
  hasDiag := Params.sample.hasDiag
  /-- the constraints hold -/
  ok : toParams.valid = true := by exact Params.sample_valid
  deriving DecidableEq, Repr, Inhabited

/-- The configuration of the machine at hand: every parameter of R16 that the source does not print.
Opaque, so that what is proved holds whatever it is (log 3). -/
opaque Config.implementation : Config

/-- The level of `DC` from power-on to the first burst: unspecified (R40, U7). Opaque (log 7). -/
opaque Config.powerOnChannel : Channel

/-- The value of the `k`-th free draw when it samples the free-running timer, `draw8()`
(spec/60_exceptions.md R205, U18). Opaque (log 5). -/
opaque Config.timerSample (k : Nat) : Byte

/-- The value of the `k`-th free draw when it reads a framebuffer byte that nothing has written since
power-on (spec/10_state.md R31, U2). Opaque (log 4). -/
opaque Config.unwrittenByte (k : Nat) : Byte

end Sys2Proof
end

