-- ==== Sys2Proof/Machine/State.lean ====
section
/-! DEFINITION. The state the spec gives the machine (spec/10_state.md, and the panel's environment
model of spec/20_memory.md R70), its value after power-on, and the reasons a step can stop. -/

namespace Sys2Proof.Machine

/-- A level of the chip enable or of the reset line (R35). -/
inductive Level where
  | released
  | asserted
  deriving DecidableEq, Repr

/-- A transport event (spec/20_memory.md R60). -/
inductive Event where
  /-- `SelCmd` -/
  | selCmd
  /-- `SelData` -/
  | selData
  /-- `Begin` -/
  | beginTransfer
  /-- `End` -/
  | endTransfer
  /-- `Byte(b)` -/
  | byte (b : Byte)
  /-- `Delay(n)`, in milliseconds -/
  | delay (ms : Nat)
  /-- `RstAssert` -/
  | rstAssert
  /-- `RstRelease` -/
  | rstRelease
  deriving DecidableEq, Repr

/-- The causes of a silent drop (spec/60_exceptions.md R191). -/
inductive Cause where
  | badCell
  | badChar
  | badLine
  | badRange
  | noBigMatch
  | badBufPos
  | badHalf
  | unknownOp
  | featureAbsent
  deriving DecidableEq, Repr

/-- A byte memory: the listed (address, byte) pairs; a byte that is not listed has no known value (for
`FB` nothing has written it since power-on, R31; for `PRAM` it is `unknown`, R70). -/
abbrev Memory := List Host.Cell

/-- An index of the framebuffer or of the panel RAM, 0 to 503 (R30, R51, R70). -/
abbrev FbIndex := Fin 504

/-- The panel of the environment model (R70); `none` is the spec's `unknown`. -/
structure Panel where
  /-- `PX` -/
  px : Option (Fin 84)
  /-- `PY` -/
  py : Option (Fin 6)
  /-- `PRAM`; an unlisted byte is `unknown` -/
  pram : Memory
  /-- `PEXT`: the extended instruction set is selected -/
  pext : Option Bool
  deriving DecidableEq, Repr

/-- The state of the machine. -/
structure State where
  /-- the read-only memories and build parameters (R33, spec/00_scope.md R16); no step changes it -/
  cfg : Config
  /-- `FB` (R30) -/
  fb : Memory
  /-- `INITED` (R23) -/
  inited : Bool
  /-- `BUSY` (R23) -/
  busy : Bool
  /-- `DROPCNT` (R26) -/
  dropCnt : BitVec 16
  /-- `LASTDROP` (R26) -/
  lastDrop : BitVec 4
  /-- the bytes of a partial command the decoder holds (R40, R101) -/
  held : List Byte
  /-- the bytes the host offers on the command port, not yet accepted (spec/30_encoding.md R90) -/
  hostIn : List Byte
  /-- `DC` (R35) -/
  dc : Channel
  /-- `CE` (R35) -/
  ce : Level
  /-- `RST` (R35) -/
  rst : Level
  /-- `TR`, oldest event first (R34) -/
  trace : List Event
  /-- the attached panel (R36, R70) -/
  panel : Panel
  /-- the model's own: how many free values have been drawn (log 6) -/
  draws : Nat
  deriving DecidableEq, Repr

/-- The panel after power-on and after a reset pulse's `RstAssert`: everything unknown (R70). -/
def Panel.unknown : Panel := ⟨none, none, [], none⟩

/-- The state after power-on under a configuration (R40, R220). `hostIn` is what the host offers: nothing
yet. -/
def State.powerOn (cfg : Config) : State where
  cfg := cfg
  fb := []
  inited := false
  busy := false
  dropCnt := 0
  lastDrop := 0
  held := []
  hostIn := []
  dc := Config.powerOnChannel
  ce := .released
  rst := .released
  trace := []
  panel := Panel.unknown
  draws := 0

/-- The machine right after power-on, its only reset (R40, R220). -/
def State.reset : State := State.powerOn Config.implementation

/-- Why the machine stops. -/
inductive Fault where
  /-- Raised by WICON and WICON.B, on the read of ICON when `ordinal ≥ N_ICONS`: the read is outside the
  table and has no specified result (spec/20_memory.md R58, spec/42_glyph_rasterizer.md R144, spec/93 U1:
  "fault when it executes. Not any value"). Safe: where the hardware goes on, the model stops (log 8). -/
  | iconOutsideTable (ordinal : Byte)
  deriving DecidableEq, Repr

/-- Why an instruction has no meaning. -/
inductive Refusal where
  /-- Raised by an arm of exec whose instruction is not modelled yet; no arm is left that raises it.
  Safe: the model stops. -/
  | notModelled (mnemonic : String)
  deriving DecidableEq, Repr

end Sys2Proof.Machine
end

