-- ==== Sys2Proof/Machine/Flags.lean ====
section
/-! DEFINITION. The computations of the status registers: the drop counter and the cause codes
(spec/10_state.md R26, spec/60_exceptions.md R191 to R193). -/

namespace Sys2Proof.Machine

/-- The cause code that `LASTDROP` takes: the "code" column of R191. -/
def causeCode : Cause → BitVec 4
  | .badCell => 1
  | .badChar => 2
  | .badLine => 3
  | .badRange => 4
  | .noBigMatch => 5
  | .badBufPos => 6
  | .badHalf => 7
  | .unknownOp => 8
  | .featureAbsent => 9

/-- `min(DROPCNT + 1, 0xFFFF)` (R192). -/
def countDrop (n : BitVec 16) : BitVec 16 := BitVec.ofNat 16 (min (n.toNat + 1) 0xFFFF)

/-- The status outputs the host can observe (R236(b)): `INITED`, `BUSY` and, with HAS_DIAG, `DROPCNT`
and `LASTDROP`; without it those two do not exist (R26). -/
structure StatusPorts where
  inited : Bool
  busy : Bool
  diag : Option (BitVec 16 × BitVec 4)
  deriving DecidableEq, Repr

/-- What the host observes of a state (R236(b)). -/
def statusPorts (s : State) : StatusPorts where
  inited := s.inited
  busy := s.busy
  diag := if s.cfg.hasDiag then some (s.dropCnt, s.lastDrop) else none

end Sys2Proof.Machine
end

