-- ==== Sys2Proof/Machine/Operands.lean ====
section
/-! DEFINITION. The operand forms of the commands (spec/30_encoding.md R94, R95, spec/41_addressing.md
R130, R132, spec/44_big_numerals.md R174). All arithmetic is over the naturals (spec/00_scope.md R12). -/

namespace Sys2Proof.Machine

/-- The buffer pointer a position starts a buffer-backed command at, `page*84 + col`; `none` for a
position out of range, `col > 83` or `page > 5` (R94). -/
def bufStart (col page : Byte) : Option FbIndex :=
  if h : col.toNat ≤ 83 ∧ page.toNat ≤ 5 then some ⟨page.toNat * 84 + col.toNat, by omega⟩ else none

/-- The two buffer pointers of WBIGSTR.B, for the rows `y` and `y + 1`; `none` for a position out of
range, `x > 83` or `y > 4` (R94, R174). -/
def bigBufStarts (x y : Byte) : Option (FbIndex × FbIndex) :=
  if h : x.toNat ≤ 83 ∧ y.toNat ≤ 4 then
    some (⟨y.toNat * 84 + x.toNat, by omega⟩, ⟨(y.toNat + 1) * 84 + x.toNat, by omega⟩)
  else none

/-- The start of a page row of the framebuffer; `none` for `line > 5` (R161). -/
def lineStart (line : Byte) : Option FbIndex :=
  if h : line.toNat ≤ 5 then some ⟨line.toNat * 84, by omega⟩ else none

/-- `value16 = lo + 256*hi` (R95(a)). -/
def value16 (lo hi : Byte) : BitVec 16 := BitVec.ofNat 16 (lo.toNat + 256 * hi.toNat)

/-- Any non-zero `dir` is MSB-first (R95(b)). -/
def msbFirst (dir : Byte) : Bool := dir != 0x00#8

/-- The page-select byte: the operand masked to 3 bits under its base (R130, R134). -/
def pageSelect (params : Params) (page : Nat) : Byte :=
  params.pageSelBase ||| (BitVec.ofNat 8 page &&& 0x07#8)

/-- The column-select byte: the operand masked to 7 bits under its base (R130). -/
def colSelect (params : Params) (col : Nat) : Byte :=
  params.colSelBase ||| (BitVec.ofNat 8 col &&& 0x7F#8)

/-- The two bytes of `set_position(c, p)`: page select, then column select (R130). -/
def positionBytes (params : Params) (col page : Nat) : List Byte :=
  [pageSelect params page, colSelect params col]

/-- A text cell on the 14 by 6 grid (R132, R133). -/
def cellOk (col row : Byte) : Bool := decide (row.toNat ≤ 5) && decide (col.toNat ≤ 13)

/-- The pixel column of a text cell, `col*6` (R132). -/
def cellColumn (col : Byte) : Nat := col.toNat * 6

/-- A page range RENDER accepts (spec/45_page_flush.md R180). -/
def rangeOk (fromPage toPage : Byte) : Bool :=
  decide (fromPage.toNat ≤ 5) && decide (toPage.toNat ≤ 5) && decide (fromPage.toNat ≤ toPage.toNat)

end Sys2Proof.Machine
end

