-- ==== Sys2Proof/Machine/Glyphs.lean ====
section
/-! DEFINITION. The read-only tables and the pure functions that expand a code, an ordinal or a value into
column bytes (spec/20_memory.md R54 to R58, spec/42_glyph_rasterizer.md R140, R144, R148, R153,
spec/44_big_numerals.md R170). -/

namespace Sys2Proof.Machine

/-- Byte `i` of a read-only table, `Rom(T, i)` (R13). The fallback byte is never reached: a configuration's
tables have the lengths of R16, and every read below them is inside its table (Laws/Glyphs.lean). -/
def rom (table : List Byte) (i : Nat) : Byte := table.getD i 0x00#8

/-- `n` consecutive bytes of a table from index `i`. -/
def romSlice (table : List Byte) (i n : Nat) : List Byte := (List.range n).map (fun k => rom table (i + k))

/-- The character codes the font has a glyph for, `0x20` to `0x81` (R140). -/
def charOk (code : Byte) : Bool := decide (0x20 ≤ code.toNat) && decide (code.toNat ≤ 0x81)

/-- `glyph_char(code)`: five font bytes at `5*code - 160` and a blank column (R140). -/
def glyphChar (params : Params) (code : Byte) : Option (List Byte) :=
  if charOk code then some (romSlice params.font (5 * code.toNat - 160) 5 ++ [0x00#8]) else none

/-- The ordinals the icon table holds (R144). -/
def iconOk (params : Params) (ordinal : Byte) : Bool := decide (ordinal.toNat < params.nIcons)

/-- `glyph_icon(ordinal)`: eight icon bytes at `8*ordinal` and a blank column (R144). -/
def glyphIcon (params : Params) (ordinal : Byte) : List Byte :=
  romSlice params.icon (8 * ordinal.toNat) 8 ++ [0x00#8]

/-- `hexdigit(n)`, the character code of a digit, upper-case letters for 10 to 15 (R153). -/
def hexDigit (n : Nat) : Byte := if n ≤ 9 then BitVec.ofNat 8 (0x30 + n) else BitVec.ofNat 8 (0x37 + n)

/-- One bit of a bit graph: the tiny glyph of its value and a separator column (R148). -/
def tinyGlyph (params : Params) (bit : Bool) : List Byte :=
  romSlice (if bit then params.tinyOne else params.tinyZero) 0 4 ++ [0x00#8]

/-- The bits of a value in traversal order: 15 down to 0 when MSB-first, else 0 up to 15 (R148). -/
def traversal (value : BitVec 16) (msb : Bool) : List Bool :=
  let upward := (List.range 16).map (fun i => value.getLsbD i)
  if msb then upward.reverse else upward

/-- `glyph_bits(value16, dir)` (R148). -/
def glyphBits (params : Params) (value : BitVec 16) (msb : Bool) : List Byte :=
  (traversal value msb).flatMap (tinyGlyph params)

/-- The least index at which `code` stands in the character table (R170). -/
def scanChars : List Byte → Byte → Option Nat
  | [], _ => none
  | c :: chars, code =>
    if c = code then some 0
    else match scanChars chars code with
      | some i => some (i + 1)
      | none => none

/-- `BIG_START(i)` (R57). -/
def bigStart (t : BigTables) (i : Nat) : Nat := 2 * columnsBefore t.lens i

/-- The columns of one half of entry `i` and a blank column (R170). -/
def bigColumns (t : BigTables) (i half : Nat) : List Byte :=
  (List.range (rom t.lens i).toNat).map (fun c => rom t.data (bigStart t i + 2 * c + half)) ++ [0x00#8]

/-- `glyph_big(code, half)` (R170). -/
def glyphBig (t : BigTables) (code : Byte) (half : Nat) : Option (List Byte) :=
  match scanChars t.chars code with
  | some i => some (bigColumns t i half)
  | none => none

/-- The half of the top row, `T = BIG_TOP_OFFSET` (R173). -/
def topHalf (t : BigTables) : Nat := t.topOffset.val

/-- The half of the bottom row, `1 - T` (R173). -/
def bottomHalf (t : BigTables) : Nat := 1 - t.topOffset.val

end Sys2Proof.Machine
end

