-- ==== Sys2Proof/Machine/Wire.lean ====
section
/-! DEFINITION. What a transport trace carries: the wire stream and its two channels, and the line
levels it leaves (spec/20_memory.md R60 to R64). -/

namespace Sys2Proof.Machine

/-- The level of `DC` after an event (R60). -/
def channelAfter (dc : Channel) : Event → Channel
  | .selCmd => .cmd
  | .selData => .data
  | .beginTransfer => dc
  | .endTransfer => dc
  | .byte _ => dc
  | .delay _ => dc
  | .rstAssert => dc
  | .rstRelease => dc

/-- The level of `CE` after an event (R60). -/
def chipEnableAfter (ce : Level) : Event → Level
  | .selCmd => ce
  | .selData => ce
  | .beginTransfer => .asserted
  | .endTransfer => .released
  | .byte _ => ce
  | .delay _ => ce
  | .rstAssert => ce
  | .rstRelease => ce

/-- The level of `RST` after an event (R60). -/
def resetLineAfter (rst : Level) : Event → Level
  | .selCmd => rst
  | .selData => rst
  | .beginTransfer => rst
  | .endTransfer => rst
  | .byte _ => rst
  | .delay _ => rst
  | .rstAssert => .asserted
  | .rstRelease => .released

/-- The wire stream of a trace that begins with `DC = dc`: its bytes, each with the channel `DC`
selects at that moment (R61). -/
def wireStream : Channel → List Event → List (Channel × Byte)
  | _, [] => []
  | dc, .byte b :: events => (dc, b) :: wireStream dc events
  | _, .selCmd :: events => wireStream .cmd events
  | _, .selData :: events => wireStream .data events
  | dc, .beginTransfer :: events => wireStream dc events
  | dc, .endTransfer :: events => wireStream dc events
  | dc, .delay _ :: events => wireStream dc events
  | dc, .rstAssert :: events => wireStream dc events
  | dc, .rstRelease :: events => wireStream dc events

/-- The bytes of a wire stream on one channel (R61). -/
def channelStream (ch : Channel) (wire : List (Channel × Byte)) : List Byte :=
  (wire.filter (fun cb => cb.1 == ch)).map (·.2)

/-- The data stream of a trace (R61). -/
def dataStream (dc : Channel) (events : List Event) : List Byte :=
  channelStream .data (wireStream dc events)

/-- The command stream of a trace (R61). -/
def commandStream (dc : Channel) (events : List Event) : List Byte :=
  channelStream .cmd (wireStream dc events)

/-- The event that selects a channel (R60). -/
def selectEvent : Channel → Event
  | .cmd => .selCmd
  | .data => .selData

/-- The events of one bracketed burst of bytes on a channel: selector, begin, the bytes, end (R62,
R63); none at all for no bytes (R64). -/
def burst (ch : Channel) : List Byte → List Event
  | [] => []
  | b :: bytes =>
    [selectEvent ch, .beginTransfer] ++ (b :: bytes).map Event.byte ++ [.endTransfer]

end Sys2Proof.Machine
end

