-- ==== Sys2Proof/Machine/Panel.lean ====
section
/-! DEFINITION. Byte memories in their one canonical form, and the environment model of the attached
panel (spec/20_memory.md R70 to R75). -/

namespace Sys2Proof.Machine

/-! ### Memories -/

/-- The byte listed at an address; `none` where nothing is listed. -/
def Memory.read : Memory → Nat → Option Byte
  | [], _ => none
  | (a', b) :: rest, a => if a = a' then some b else Memory.read rest a

/-- The memory with `b` listed at `a`, in its place in the address order: a byte write replaces all 8
bits (R69). An unlisted byte has no value, so no listed value stands for "unlisted". -/
def Memory.write : Memory → Nat → Byte → Memory
  | [], a, b => [(a, b)]
  | (a', b') :: rest, a, b =>
    if a < a' then (a, b) :: (a', b') :: rest
    else if a = a' then (a, b) :: rest
    else (a', b') :: Memory.write rest a b

/-- The canonical form: listed addresses strictly rising and all below 504 (R30, R70). The clause "no entry
equals what an unlisted address reads as" is empty here, since an unlisted address has no value. -/
abbrev Memory.wf (m : Memory) : Prop :=
  m.Pairwise (fun c d => c.1 < d.1) ∧ ∀ c ∈ m, c.1 < 504

/-- The index after `i`: 503 is followed by 0 (R67, and R72's cursor advance). -/
def nextIndex (i : FbIndex) : FbIndex :=
  if h : i.val + 1 < 504 then ⟨i.val + 1, h⟩ else ⟨0, by omega⟩

/-- `bytes` written at consecutive indices from `i`: the memory after it (R66). -/
def Memory.writeRun : Memory → FbIndex → List Byte → Memory
  | m, _, [] => m
  | m, i, b :: bytes => Memory.writeRun (m.write i.val b) (nextIndex i) bytes

/-- The index `n` bytes after `i`. -/
def indexAfter : FbIndex → Nat → FbIndex
  | i, 0 => i
  | i, n + 1 => indexAfter (nextIndex i) n

/-! ### The panel -/

/-- Both cursor components become `unknown` (R70). -/
def Panel.loseCursor (p : Panel) : Panel := { p with px := none, py := none }

/-- A page select with field value `page`: 0 to 5 sets the page and keeps the column; 6 and 7 make the
cursor unknown (R71, R73). -/
def Panel.selectPage (p : Panel) (page : Nat) : Panel :=
  if h : page < 6 then { p with py := some ⟨page, h⟩ } else p.loseCursor

/-- A column select with field value `col`: 0 to 83 sets the column and keeps the page; 84 to 127 make
the cursor unknown (R71, R73). -/
def Panel.selectCol (p : Panel) (col : Nat) : Panel :=
  if h : col < 84 then { p with px := some ⟨col, h⟩ } else p.loseCursor

/-- A command byte that is neither function-set byte, in the basic instruction set (R71). -/
def Panel.basicCommand (params : Params) (p : Panel) (c : Byte) : Panel :=
  if params.isPageSelect c then p.selectPage (c &&& 0x07#8).toNat
  else if params.isColSelect c then p.selectCol (c &&& 0x7F#8).toNat
  else p

/-- A byte received on the command channel (R71): the function-set bytes select the instruction set;
any other is opaque in the extended set, decoded in the basic set, and loses the cursor while the set
is unknown. -/
def Panel.command (params : Params) (p : Panel) (c : Byte) : Panel :=
  if c = params.funcExt then { p with pext := some true }
  else if c = params.funcBasic then { p with pext := some false }
  else match p.pext with
    | some true => p
    | some false => p.basicCommand params c
    | none => p.loseCursor

/-- The cursor position as an index of `PRAM`, `PY*84 + PX` (R70). -/
def cursorIndex (x : Fin 84) (y : Fin 6) : FbIndex := ⟨y.val * 84 + x.val, by omega⟩

/-- The cursor one byte on: to the next column, after column 83 to column 0 of the next page, after the
last byte of page 5 to `(0, 0)`. That last wrap is PRESUMED: R72 states it as general knowledge (U15,
log 9). -/
def advanceCursor (x : Fin 84) (y : Fin 6) : Fin 84 × Fin 6 :=
  if hx : x.val + 1 < 84 then (⟨x.val + 1, hx⟩, y)
  else if hy : y.val + 1 < 6 then (⟨0, by omega⟩, ⟨y.val + 1, hy⟩)
  else (⟨0, by omega⟩, ⟨0, by omega⟩)

/-- A byte received on the data channel: written at a known cursor, which then advances (R72); at an
unknown cursor it makes all of `PRAM` and both components unknown (R73). R72 sets no condition on
`PEXT` (log 10). -/
def Panel.data (p : Panel) (b : Byte) : Panel :=
  match p.px, p.py with
  | some x, some y =>
    { p with
      pram := p.pram.write (cursorIndex x y).val b
      px := some (advanceCursor x y).1
      py := some (advanceCursor x y).2 }
  | _, _ => { p.loseCursor with pram := [] }

/-- A byte received on the channel `DC` selects (R60, R71, R72). -/
def Panel.receive (params : Params) (dc : Channel) (p : Panel) (b : Byte) : Panel :=
  match dc with
  | .cmd => p.command params b
  | .data => p.data b

/-- The panel after a transport event, while `DC = dc`: a byte is received, `RstAssert` makes everything
unknown (R70, U22), and no other event has an effect on it (R74). -/
def Panel.after (params : Params) (dc : Channel) (p : Panel) : Event → Panel
  | .byte b => p.receive params dc b
  | .rstAssert => Panel.unknown
  | .rstRelease => p
  | .selCmd => p
  | .selData => p
  | .beginTransfer => p
  | .endTransfer => p
  | .delay _ => p

/-- The panel after a sequence of transport events that begins with `DC = dc`. -/
def panelReplay (params : Params) : Channel → Panel → List Event → Panel
  | _, p, [] => p
  | dc, p, e :: events => panelReplay params (channelAfter dc e) (p.after params dc e) events

/-- `PCUR` as a whole: known when both components are (R70). -/
def Panel.cursor (p : Panel) : Option (Fin 84 × Fin 6) :=
  match p.px, p.py with
  | some x, some y => some (x, y)
  | _, _ => none

end Sys2Proof.Machine
end

