-- ==== Sys2Proof/Machine/Ops.lean ====
section
/-! DEFINITION. The named operations every meaning is written with: the silent drop (which stands where
other hardware takes an exception), the transport, the framebuffer, the two sinks of a drawing command,
and the host port. -/

namespace Sys2Proof.Machine

/-! ### The silent drop -/

/-- `drop(c)` (spec/60_exceptions.md R192): no transport event and no framebuffer write; with HAS_DIAG the
drop is counted and its cause recorded. It is the whole of what this hardware has in place of taking an
exception, and there is nothing to return from (R201, R202). -/
def drop (c : Cause) (s : State) : State :=
  { s with
    dropCnt := if s.cfg.hasDiag then countDrop s.dropCnt else s.dropCnt
    lastDrop := if s.cfg.hasDiag then causeCode c else s.lastDrop }

/-! ### The transport port -/

/-- `Tx(e)` (spec/20_memory.md R60): the event is appended to the trace, sets its line, and reaches the
panel. The transport completes every event (R65, R197; log 1). -/
def tx (s : State) (e : Event) : State :=
  { s with
    trace := s.trace ++ [e]
    dc := channelAfter s.dc e
    ce := chipEnableAfter s.ce e
    rst := resetLineAfter s.rst e
    panel := s.panel.after s.cfg.toParams s.dc e }

/-- Events one after the other, in order (R80): `tx` of each, written field by field, so that what no event
touches can be read off whatever the events are (`txs_eq_foldl` in Laws/Transport.lean: it is the fold). -/
def txs (events : List Event) (s : State) : State :=
  { s with
    trace := s.trace ++ events
    dc := events.foldl channelAfter s.dc
    ce := events.foldl chipEnableAfter s.ce
    rst := events.foldl resetLineAfter s.rst
    panel := panelReplay s.cfg.toParams s.dc s.panel events }

/-- `send_cmd(s)` (R62, R64). -/
def sendCmd (bytes : List Byte) (s : State) : State := txs (burst .cmd bytes) s

/-- `send_data(s)` (R63, R64). -/
def sendData (bytes : List Byte) (s : State) : State := txs (burst .data bytes) s

/-- `set_position(c, p)`: always both selects, always absolute (spec/41_addressing.md R130, R131). -/
def setPosition (col page : Nat) (s : State) : State := sendCmd (positionBytes s.cfg.toParams col page) s

/-! ### The framebuffer -/

/-- `bytes` written to the framebuffer at consecutive indices from `i` (R13 `MemWrite`, R66). -/
def fbWrite (i : FbIndex) (bytes : List Byte) (s : State) : State := { s with fb := s.fb.writeRun i bytes }

/-- One framebuffer byte as read: its value, or a free value where nothing has written it since power-on
(spec/10_state.md R31, U2; log 4). The number of the draw is used up. -/
def fbReadByte (fb : Memory) (draws a : Nat) : Byte × Nat :=
  match fb.read a with
  | some b => (b, draws)
  | none => (Config.unwrittenByte draws, draws + 1)

/-- `MemRead(a, n)` (R13): the bytes in ascending index, and the number of draws after it. -/
def fbReadRun (fb : Memory) : Nat → Nat → Nat → List Byte × Nat
  | draws, _, 0 => ([], draws)
  | draws, a, n + 1 =>
    ((fbReadByte fb draws a).1 :: (fbReadRun fb (fbReadByte fb draws a).2 (a + 1) n).1,
      (fbReadRun fb (fbReadByte fb draws a).2 (a + 1) n).2)

/-- `n` samples of the free-running timer, each unconstrained: `draw8()` (R205; log 5). -/
def timerSamples (draws n : Nat) : List Byte := (List.range n).map (fun k => Config.timerSample (draws + k))

/-! ### The sinks of a drawing command -/

/-- Where a drawing command delivers its bytes (R66): the panel, or the framebuffer at the running
pointer `bp`. -/
inductive Sink where
  | panel
  | buf (bp : FbIndex)
  deriving DecidableEq, Repr

/-- A drawing command under way: the state and its sink. The sink is transient (R24, R66). -/
structure Drawing where
  state : State
  sink : Sink
  deriving DecidableEq, Repr

/-- `emit(s)` (R66): one data burst to the panel, or the bytes at consecutive framebuffer indices from
`bp`, which advances and wraps from 503 to 0 (R67). -/
def emit (bytes : List Byte) (d : Drawing) : Drawing :=
  match d.sink with
  | .panel => { d with state := sendData bytes d.state }
  | .buf bp => ⟨fbWrite bp bytes d.state, .buf (indexAfter bp bytes.length)⟩

/-- A drop inside a drawing command: the pointer does not move (R192). -/
def dropItem (c : Cause) (d : Drawing) : Drawing := { d with state := drop c d.state }

/-- The bytes of an item delivered, or the item dropped where there is no glyph for it. -/
def emitOrDrop (c : Cause) (glyph : Option (List Byte)) (d : Drawing) : Drawing :=
  match glyph with
  | some bytes => emit bytes d
  | none => dropItem c d

/-- `put_char(code)` (spec/42_glyph_rasterizer.md R141). -/
def putChar (d : Drawing) (code : Byte) : Drawing :=
  emitOrDrop .badChar (glyphChar d.state.cfg.toParams code) d

/-- `put_string(text)`: one `put_char` a byte, in order (R143). -/
def putString (text : List Byte) (d : Drawing) : Drawing := text.foldl putChar d

/-- `put_hex(value)`: the high digit, then the low one (R147). -/
def putHex (value : Byte) (d : Drawing) : Drawing :=
  putChar (putChar d (hexDigit (value.toNat / 16))) (hexDigit (value.toNat % 16))

/-- `put_big(code, half)` (spec/44_big_numerals.md R171). -/
def putBig (t : BigTables) (half : Nat) (d : Drawing) (code : Byte) : Drawing :=
  emitOrDrop .noBigMatch (glyphBig t code half) d

/-- One pass of a big string: one `put_big` a byte, in order (R173). -/
def putBigString (t : BigTables) (half : Nat) (text : List Byte) (d : Drawing) : Drawing :=
  text.foldl (putBig t half) d

/-- A drawing run with sink `PANEL` (R93). -/
def drawDirect (run : Drawing → Drawing) (s : State) : State := (run ⟨s, .panel⟩).state

/-- A drawing run with sink `BUF` from `bp` (R66). -/
def drawBuffered (bp : FbIndex) (run : Drawing → Drawing) (s : State) : State := (run ⟨s, .buf bp⟩).state

/-- A buffer-backed command with position operands: BAD_BUFPOS before every other effect, else the run
from the position's index (spec/30_encoding.md R94, R200). -/
def drawAt (col page : Byte) (run : Drawing → Drawing) (s : State) : State :=
  match bufStart col page with
  | some bp => drawBuffered bp run s
  | none => drop .badBufPos s

/-! ### The host port -/

/-- The host offers bytes on the command port (spec/70_reset_and_hazards.md R236(a)); the block takes them
in order, when it accepts. -/
def hostOffer (bytes : List Byte) (s : State) : State := { s with hostIn := s.hostIn ++ bytes }

/-- The host removes power and restores it (R236(c)): the power-on state of the same configuration (R25,
R40), with the bytes the host had offered and the block not accepted gone (log 15). The count of free
draws goes on, so that the values drawn afterwards are fresh (log 6). -/
def powerCycle (s : State) : State := { State.powerOn s.cfg with draws := s.draws }

/-- Something other than the block drives the panel (spec/20_memory.md R75): an environment event between
two commands, after which the cursor is unknown. No step of the block makes it happen (log 13). -/
def otherDriver (s : State) : State := { s with panel := s.panel.loseCursor }

/-- The bytes at the command port: those the decoder holds, then those the host offers (R90, R101). -/
def portBytes (s : State) : List Byte := s.held ++ s.hostIn

/-- What the decoder makes of the bytes at the port. -/
def fetch (s : State) : Decoded := decode (portBytes s)

/-- The last byte of a command has been accepted: the decoder is idle again, `rest` is still offered, and
`BUSY` rises (spec/10_state.md R23, R90). -/
def acceptCommand (rest : List Byte) (s : State) : State := { s with held := [], hostIn := rest, busy := true }

/-- Bytes that are only the beginning of a command are accepted and held; no effect follows (R101). -/
def holdPartial (s : State) : State := { s with held := portBytes s, hostIn := [] }

/-- The last transport event of a command has completed: `BUSY` falls (R23). -/
def completeCommand (s : State) : State := { s with busy := false }

/-- `completeCommand` where the command answered a state. -/
def completeOutcome : Host.Outcome State Fault Refusal → Host.Outcome State Fault Refusal
  | .next s => .next (completeCommand s)
  | .fault r => .fault r
  | .refused r => .refused r

/-- A reserved opcode: a command of length 1 that is `drop(UNKNOWN_OP)` (R98). -/
def runReserved (rest : List Byte) (s : State) : State :=
  completeCommand (drop .unknownOp (acceptCommand rest s))

/-- The bytes placed at the head of the command port, before what the host already offers, the decoder
idle and the block not busy. -/
def placeCommand (bytes : List Byte) (s : State) : State :=
  { s with held := [], hostIn := bytes ++ s.hostIn, busy := false }

end Sys2Proof.Machine
end

