-- ==== Sys2Proof/Machine/Addressing.lean ====
section
/-! DEFINITION. The addressing commands SETPOS, SETCELL and SETPAGE (spec/41_addressing.md). -/

namespace Sys2Proof.Machine

/-- SETPOS: both operands masked, never rejected (R130). -/
def execSetpos (col page : Byte) (s : State) : Host.Outcome State Fault Refusal :=
  .next (setPosition col.toNat page.toNat s)

/-- SETCELL: BAD_CELL off the grid, else the cell's first pixel column (R132). -/
def execSetcell (col row : Byte) (s : State) : Host.Outcome State Fault Refusal :=
  .next (if cellOk col row then setPosition (cellColumn col) row.toNat s else drop .badCell s)

/-- SETPAGE: the page select alone (R134). -/
def execSetpage (page : Byte) (s : State) : Host.Outcome State Fault Refusal :=
  .next (sendCmd [pageSelect s.cfg.toParams page.toNat] s)

end Sys2Proof.Machine
end

