-- ==== Sys2Proof/Machine/BigNumerals.lean ====
section
/-! DEFINITION. The big-numeral extension (spec/44_big_numerals.md). Without HAS_BIG each command is
`drop(FEATURE_ABSENT)`, before every other check (R175, R200). -/

namespace Sys2Proof.Machine

/-- WBIGNUM: BAD_HALF, then the scan (R171). -/
def execWbignum (code half : Byte) (s : State) : Host.Outcome State Fault Refusal :=
  .next (match s.cfg.big with
    | none => drop .featureAbsent s
    | some t =>
      if half.toNat ≤ 1 then drawDirect (fun d => putBig t half.toNat d code) s else drop .badHalf s)

/-- WBIGNUM.B: BAD_BUFPOS, BAD_HALF, then the scan (R172). -/
def execWbignumB (col page code half : Byte) (s : State) : Host.Outcome State Fault Refusal :=
  .next (match s.cfg.big, bufStart col page with
    | none, _ => drop .featureAbsent s
    | some _, none => drop .badBufPos s
    | some t, some bp =>
      if half.toNat ≤ 1 then drawBuffered bp (fun d => putBig t half.toNat d code) s else drop .badHalf s)

/-- WBIGSTR: the top halves at `(x, y)`, then the bottom halves at `(x, y + 1)`; `y + 1` is taken in the
naturals and then masked (R173). -/
def execWbigstr (x y : Byte) (text : List Byte) (s : State) : Host.Outcome State Fault Refusal :=
  .next (match s.cfg.big with
    | none => drop .featureAbsent s
    | some t =>
      let top := drawDirect (putBigString t (topHalf t) text) (setPosition x.toNat y.toNat s)
      drawDirect (putBigString t (bottomHalf t) text) (setPosition x.toNat (y.toNat + 1) top))

/-- WBIGSTR.B: the same two passes into the framebuffer rows `y` and `y + 1` (R174). -/
def execWbigstrB (x y : Byte) (text : List Byte) (s : State) : Host.Outcome State Fault Refusal :=
  .next (match s.cfg.big, bigBufStarts x y with
    | none, _ => drop .featureAbsent s
    | some _, none => drop .badBufPos s
    | some t, some starts =>
      let top := drawBuffered starts.1 (putBigString t (topHalf t) text) s
      drawBuffered starts.2 (putBigString t (bottomHalf t) text) top)

end Sys2Proof.Machine
end

