-- ==== Sys2Proof/Machine/Clears.lean ====
section
/-! DEFINITION. The clear commands and the diagnostic fill (spec/43_clear_and_diag.md). -/

namespace Sys2Proof.Machine

/-- CLRLINE: position, 84 zero bytes, position back (R160). -/
def execClrline (line : Byte) (s : State) : Host.Outcome State Fault Refusal :=
  .next (match lineStart line with
    | some _ => setPosition 0 line.toNat (sendData (blanks 84) (setPosition 0 line.toNat s))
    | none => drop .badLine s)

/-- CLRLINE.B (R161). -/
def execClrlineB (line : Byte) (s : State) : Host.Outcome State Fault Refusal :=
  .next (match lineStart line with
    | some start => fbWrite start (blanks 84) s
    | none => drop .badLine s)

/-- CLRALL: the panel's RAM, not the framebuffer (R162). -/
def execClrall (s : State) : Host.Outcome State Fault Refusal :=
  .next (sendData (blanks 504) (setPosition 0 0 s))

/-- CLRALL.B: the framebuffer, no transport event (R163). -/
def execClrallB (s : State) : Host.Outcome State Fault Refusal :=
  .next (fbWrite 0 (blanks 504) s)

/-- JUNK: 504 timer samples in one data burst, no positioning; each is a free value (R164, R205; log 5). -/
def execJunk (s : State) : Host.Outcome State Fault Refusal :=
  .next { sendData (timerSamples s.draws 504) s with draws := s.draws + 504 }

end Sys2Proof.Machine
end

