-- ==== Sys2Proof/Machine/Flush.lean ====
section
/-! DEFINITION. The page flush engine's command RENDER (spec/45_page_flush.md). -/

namespace Sys2Proof.Machine

/-- The framebuffer bytes of an inclusive page range, and the number of free draws after the read (R180). -/
def pageRangeBytes (fromPage toPage : Byte) (s : State) : List Byte × Nat :=
  fbReadRun s.fb s.draws (fromPage.toNat * 84) ((toPage.toNat - fromPage.toNat + 1) * 84)

/-- RENDER: BAD_RANGE, else the position `(0, from)` and one continuous data burst of the range (R180,
R181, R184). The framebuffer is read and not changed. -/
def execRender (fromPage toPage : Byte) (s : State) : Host.Outcome State Fault Refusal :=
  .next (if rangeOk fromPage toPage then
      { sendData (pageRangeBytes fromPage toPage s).1 (setPosition 0 fromPage.toNat s) with
        draws := (pageRangeBytes fromPage toPage s).2 }
    else drop .badRange s)

end Sys2Proof.Machine
end

