-- ==== Sys2Proof/Machine/Init.lean ====
section
/-! DEFINITION. INIT (spec/40_init.md R120 to R125). -/

namespace Sys2Proof.Machine

/-- The optional reset pulse and its two delays (R120, R122). -/
def pulseEvents (params : Params) : List Event :=
  match params.resetPulse with
  | some p => [.rstAssert, .delay p.assertMs, .rstRelease, .delay p.releaseMs]
  | none => []

/-- The configuration bytes that INIT sends before the clear, one burst (R120, R121). -/
def bringUpBytes (params : Params) : List Byte :=
  [params.funcExt, params.bias, params.vop, params.funcBasic, params.dispAllOn]

/-- INIT (R120): the pulse, the bring-up burst, the clear of the panel and of the framebuffer (R123),
display-normal, the cursor to (0, 0), and `INITED` set (R124). It tests nothing and never drops. -/
def execInit (s : State) : Host.Outcome State Fault Refusal :=
  let pulsed := txs (pulseEvents s.cfg.toParams) s
  let brought := sendCmd (bringUpBytes s.cfg.toParams) pulsed
  let panelCleared := sendData (blanks 504) (setPosition 0 0 brought)
  let cleared := fbWrite 0 (blanks 504) panelCleared
  let normal := sendCmd [s.cfg.dispNormal] cleared
  .next { setPosition 0 0 normal with inited := true }

end Sys2Proof.Machine
end

