-- ==== Sys2Proof/Machine/Rasterizer.lean ====
section
/-! DEFINITION. The glyph rasterizer's commands and their buffer-backed variants
(spec/42_glyph_rasterizer.md). -/

namespace Sys2Proof.Machine

/-- WCHAR (R141). -/
def execWchar (code : Byte) (s : State) : Host.Outcome State Fault Refusal :=
  .next (drawDirect (fun d => putChar d code) s)

/-- WCHAR.B (R142). -/
def execWcharB (col page code : Byte) (s : State) : Host.Outcome State Fault Refusal :=
  .next (drawAt col page (fun d => putChar d code) s)

/-- WSTR (R143). -/
def execWstr (text : List Byte) (s : State) : Host.Outcome State Fault Refusal :=
  .next (drawDirect (putString text) s)

/-- WSTR.B (R150). -/
def execWstrB (col page : Byte) (text : List Byte) (s : State) : Host.Outcome State Fault Refusal :=
  .next (drawAt col page (putString text) s)

/-- WICON (R145); an ordinal outside the table stops the machine (R58, R144, U1; log 8). -/
def execWicon (ordinal : Byte) (s : State) : Host.Outcome State Fault Refusal :=
  if iconOk s.cfg.toParams ordinal then .next (drawDirect (emit (glyphIcon s.cfg.toParams ordinal)) s)
  else .fault (.iconOutsideTable ordinal)

/-- WICON.B (R146): BAD_BUFPOS first, so that a dropped command reads no icon. -/
def execWiconB (col page ordinal : Byte) (s : State) : Host.Outcome State Fault Refusal :=
  if iconOk s.cfg.toParams ordinal || (bufStart col page).isNone then
    .next (drawAt col page (emit (glyphIcon s.cfg.toParams ordinal)) s)
  else .fault (.iconOutsideTable ordinal)

/-- WHEX (R147). -/
def execWhex (value : Byte) (s : State) : Host.Outcome State Fault Refusal :=
  .next (drawDirect (putHex value) s)

/-- WHEX.B (R151). -/
def execWhexB (col page value : Byte) (s : State) : Host.Outcome State Fault Refusal :=
  .next (drawAt col page (putHex value) s)

/-- WBITS (R149). -/
def execWbits (lo hi dir : Byte) (s : State) : Host.Outcome State Fault Refusal :=
  .next (drawDirect (emit (glyphBits s.cfg.toParams (value16 lo hi) (msbFirst dir))) s)

/-- WBITS.B (R152). -/
def execWbitsB (col page lo hi dir : Byte) (s : State) : Host.Outcome State Fault Refusal :=
  .next (drawAt col page (emit (glyphBits s.cfg.toParams (value16 lo hi) (msbFirst dir))) s)

end Sys2Proof.Machine
end

