-- ==== Sys2Proof/Machine/Dispatch.lean ====
section
/-! DEFINITION. What each command does: one arm a constructor, each one call of its meaning. -/

namespace Sys2Proof.Machine

/-- Execute one command (spec/00_scope.md R14). -/
def exec (i : Instr) (s : State) : Host.Outcome State Fault Refusal :=
  match i with
  | .init => Sys2Proof.Machine.execInit s
  | .setpos col page => Sys2Proof.Machine.execSetpos col page s
  | .setcell col row => Sys2Proof.Machine.execSetcell col row s
  | .setpage page => Sys2Proof.Machine.execSetpage page s
  | .wchar code => Sys2Proof.Machine.execWchar code s
  | .wstr text => Sys2Proof.Machine.execWstr text s
  | .wicon ordinal => Sys2Proof.Machine.execWicon ordinal s
  | .whex value => Sys2Proof.Machine.execWhex value s
  | .wbits lo hi dir => Sys2Proof.Machine.execWbits lo hi dir s
  | .clrline line => Sys2Proof.Machine.execClrline line s
  | .clrall => Sys2Proof.Machine.execClrall s
  | .junk => Sys2Proof.Machine.execJunk s
  | .wbignum code half => Sys2Proof.Machine.execWbignum code half s
  | .wbigstr x y text => Sys2Proof.Machine.execWbigstr x y text s
  | .render fromPage toPage => Sys2Proof.Machine.execRender fromPage toPage s
  | .wcharB col page code => Sys2Proof.Machine.execWcharB col page code s
  | .wstrB col page text => Sys2Proof.Machine.execWstrB col page text s
  | .wiconB col page ordinal => Sys2Proof.Machine.execWiconB col page ordinal s
  | .whexB col page value => Sys2Proof.Machine.execWhexB col page value s
  | .wbitsB col page lo hi dir => Sys2Proof.Machine.execWbitsB col page lo hi dir s
  | .clrlineB line => Sys2Proof.Machine.execClrlineB line s
  | .clrallB => Sys2Proof.Machine.execClrallB s
  | .wbignumB col page code half => Sys2Proof.Machine.execWbignumB col page code half s
  | .wbigstrB x y text => Sys2Proof.Machine.execWbigstrB x y text s

end Sys2Proof.Machine
end

