-- ==== Sys2Proof/Machine/Step.lean ====
section
/-! DEFINITION. One step of the machine: the next command of the host's byte stream, run whole
(spec/30_encoding.md R90, R101; log 1, log 2). -/

namespace Sys2Proof.Machine

/-- One step (R90). While `BUSY = 1` the block accepts no byte and nothing changes (R234; log 12). Else it
accepts the bytes of the next command and runs it to completion; a reserved opcode is dropped (R98);
bytes that are only the beginning of a command are held, and with no byte offered the block waits
(R41, R101; log 11). -/
def step (s : State) : Host.Outcome State Fault Refusal :=
  if s.busy then .next s
  else match fetch s with
    | .instr i rest => completeOutcome (exec i (acceptCommand rest s))
    | .reserved _ rest => .next (runReserved rest s)
    | .incomplete => .next (holdPartial s)

/-- `s` with the command that the table word `w` of `nbits` bits spells (further bytes zero) placed at
the head of the host's byte stream, so that the next step accepts and runs it (log 2). -/
def State.withFetchWord (s : State) (nbits w : Nat) : State := placeCommand (commandBytes nbits w) s

end Sys2Proof.Machine
end

