-- ==== Sys2Proof/Safety.lean ====
section
/-! DEFINITION. The terms in which claims about the machine are stated: what a command leaves unchanged,
what it transmits, writes and drops, and the invariants of a good state. -/

namespace Sys2Proof.Machine

/-! ### What changes from `s` to `t` -/

/-- The configuration, `INITED`, `BUSY`, the decoder and the host's offered bytes are unchanged. -/
def SameControl (s t : State) : Prop :=
  t.cfg = s.cfg ∧ t.inited = s.inited ∧ t.busy = s.busy ∧ t.held = s.held ∧ t.hostIn = s.hostIn

/-- The diagnostic registers are unchanged. -/
def SameDiag (s t : State) : Prop := t.dropCnt = s.dropCnt ∧ t.lastDrop = s.lastDrop

/-- Every framebuffer byte reads as before. -/
def SameBuffer (s t : State) : Prop := ∀ a, t.fb.read a = s.fb.read a

/-- No transport event: the trace, the lines and the panel are unchanged. -/
def SameTransport (s t : State) : Prop :=
  t.trace = s.trace ∧ t.dc = s.dc ∧ t.ce = s.ce ∧ t.rst = s.rst ∧ t.panel = s.panel

/-- Exactly these transport events, in this order: the trace grows by them (R34), the lines are as they
leave them (R60), and the panel has received them (R71 to R74). -/
def Transmits (s t : State) (events : List Event) : Prop :=
  t.trace = s.trace ++ events ∧
  t.dc = events.foldl channelAfter s.dc ∧
  t.ce = events.foldl chipEnableAfter s.ce ∧
  t.rst = events.foldl resetLineAfter s.rst ∧
  t.panel = panelReplay s.cfg.toParams s.dc s.panel events

/-- `n` drops with cause `c`: counted, saturating at 0xFFFF, and the cause recorded, if HAS_DIAG; without
it nothing changes (R192). -/
def Drops (s t : State) (c : Cause) (n : Nat) : Prop :=
  (s.cfg.hasDiag = true →
    t.dropCnt.toNat = min (s.dropCnt.toNat + n) 0xFFFF ∧
    t.lastDrop = if n = 0 then s.lastDrop else causeCode c) ∧
  (s.cfg.hasDiag = false → SameDiag s t)

/-- The framebuffer holds `bytes` at the consecutive indices `start`, `start + 1`, ..., each modulo 504,
a later byte over an earlier one at the same index, and every other byte reads as before (R66, R67). -/
def WritesRun (s t : State) (start : Nat) (bytes : List Byte) : Prop :=
  (∀ k b, bytes[k]? = some b →
    (∀ j, k < j → j < bytes.length → (start + j) % 504 ≠ (start + k) % 504) →
    t.fb.read ((start + k) % 504) = some b) ∧
  (∀ a, (∀ k, k < bytes.length → a ≠ (start + k) % 504) → t.fb.read a = s.fb.read a)

/-- The command transmits these events and does nothing else. -/
def OnlyTransmits (s t : State) (events : List Event) : Prop :=
  Transmits s t events ∧ SameBuffer s t ∧ SameControl s t ∧ SameDiag s t ∧ t.draws = s.draws

/-- The command writes this run of framebuffer bytes and does nothing else. -/
def OnlyWrites (s t : State) (start : Nat) (bytes : List Byte) : Prop :=
  WritesRun s t start bytes ∧ SameTransport s t ∧ SameControl s t ∧ SameDiag s t ∧ t.draws = s.draws

/-- The command is one silent drop with cause `c` and does nothing else (R192). -/
def OnlyDrops (s t : State) (c : Cause) : Prop :=
  Drops s t c 1 ∧ SameTransport s t ∧ SameBuffer s t ∧ SameControl s t ∧ t.draws = s.draws

/-! ### Good states -/

/-- Both memories have their canonical form. -/
def MemoriesCanonical (s : State) : Prop := s.fb.wf ∧ s.panel.pram.wf

/-- The lines as they are outside a command: `CE` and `RST` released, `BUSY` 0 (R35, R40). -/
def LinesIdle (s : State) : Prop := s.ce = .released ∧ s.rst = .released ∧ s.busy = false

/-- `LASTDROP` is 0 exactly while no drop has been counted, and never above 9 (R26, R193); without
HAS_DIAG nothing is ever recorded (R26). -/
def DiagConsistent (s : State) : Prop :=
  s.lastDrop.toNat ≤ 9 ∧ (s.lastDrop = 0 ↔ s.dropCnt = 0) ∧ (s.cfg.hasDiag = false → s.dropCnt = 0)

/-- Once `INITED` is 1, every framebuffer byte has been written and the panel is in the basic instruction
set (R125, R226). -/
def InitedPrepared (s : State) : Prop :=
  s.inited = true → (∀ a, a < 504 → (s.fb.read a).isSome = true) ∧ s.panel.pext = some false

/-- The decoder holds no complete command (R101). -/
def DecoderPartial (s : State) : Prop := decode s.held = .incomplete

/-- The panel and `DC` are what the trace since power-on makes of them: nothing else reaches the panel
(R36, R70, R76). -/
def PanelFollowsTrace (s : State) : Prop :=
  s.dc = s.trace.foldl channelAfter Config.powerOnChannel ∧
  s.panel = panelReplay s.cfg.toParams Config.powerOnChannel Panel.unknown s.trace

/-! ### Instruction classes of spec/30_encoding.md R93 and spec/10_state.md R32 -/

/-- The nine buffer-backed variants (R93). -/
def isBuffered : Instr → Bool
  | .init => false
  | .setpos _ _ => false
  | .setcell _ _ => false
  | .setpage _ => false
  | .wchar _ => false
  | .wstr _ => false
  | .wicon _ => false
  | .whex _ => false
  | .wbits _ _ _ => false
  | .clrline _ => false
  | .clrall => false
  | .junk => false
  | .wbignum _ _ => false
  | .wbigstr _ _ _ => false
  | .render _ _ => false
  | .wcharB _ _ _ => true
  | .wstrB _ _ _ => true
  | .wiconB _ _ _ => true
  | .whexB _ _ _ => true
  | .wbitsB _ _ _ _ _ => true
  | .clrlineB _ => true
  | .clrallB => true
  | .wbignumB _ _ _ _ => true
  | .wbigstrB _ _ _ => true

/-- The commands that write `FB`: INIT and the nine buffer-backed variants (R32). -/
def writesBuffer (i : Instr) : Bool := decide (i = .init) || isBuffered i

/-! ### The glyphs in the spec's own terms -/

/-- A character code the font draws: `0x20` to `0x81` (R140). -/
def drawable (code : Byte) : Bool := decide (0x20 ≤ code.toNat ∧ code.toNat ≤ 0x81)

/-- The six column bytes of a drawable code: `FONT[o]` to `FONT[o+4]` with `o = 5*code - 160`, and a blank
(R140). -/
def fontColumns (cfg : Config) (code : Nat) : List Byte :=
  [rom cfg.font (5 * code - 160), rom cfg.font (5 * code - 160 + 1), rom cfg.font (5 * code - 160 + 2),
    rom cfg.font (5 * code - 160 + 3), rom cfg.font (5 * code - 160 + 4), 0x00#8]

/-- The column bytes a text draws: those of its drawable bytes, in order (R143). -/
def textColumns (cfg : Config) (text : List Byte) : List Byte :=
  text.flatMap (fun c => if drawable c then fontColumns cfg c.toNat else [])

/-- The bursts a text draws directly: one for each drawable byte (R143). -/
def textBursts (cfg : Config) (text : List Byte) : List Event :=
  text.flatMap (fun c => if drawable c then burst .data (fontColumns cfg c.toNat) else [])

/-- How many bytes of a text are dropped. -/
def undrawable (text : List Byte) : Nat := (text.filter (fun c => !drawable c)).length

/-- The nine column bytes of an icon (R144). -/
def iconColumns (cfg : Config) (ordinal : Nat) : List Byte :=
  [rom cfg.icon (8 * ordinal), rom cfg.icon (8 * ordinal + 1), rom cfg.icon (8 * ordinal + 2),
    rom cfg.icon (8 * ordinal + 3), rom cfg.icon (8 * ordinal + 4), rom cfg.icon (8 * ordinal + 5),
    rom cfg.icon (8 * ordinal + 6), rom cfg.icon (8 * ordinal + 7), 0x00#8]

/-- The character code of a hexadecimal digit (R153). -/
def hexCode (n : Nat) : Nat := if n ≤ 9 then 0x30 + n else 0x37 + n

/-- The twelve column bytes of a hexadecimal byte, high digit first (R147). -/
def hexColumns (cfg : Config) (value : Byte) : List Byte :=
  fontColumns cfg (hexCode (value.toNat / 16)) ++ fontColumns cfg (hexCode (value.toNat % 16))

/-- `bytes` is the bit graph of the value `lo + 256*hi` (R148): 80 bytes, and group `j` holds the tiny
glyph of bit `15 - j` when `dir` is not zero, of bit `j` when it is, then a blank. -/
def IsBitGraph (cfg : Config) (lo hi dir : Byte) (bytes : List Byte) : Prop :=
  bytes.length = 80 ∧
  ∀ j, j < 16 →
    (∀ k, k < 4 → bytes[5 * j + k]? =
      some (rom (if (lo.toNat + 256 * hi.toNat).testBit (if dir = 0x00#8 then j else 15 - j)
        then cfg.tinyOne else cfg.tinyZero) k)) ∧
    bytes[5 * j + 4]? = some 0x00#8

/-- `bytes` is `glyph_big(code, half)` (R170): entry `i` is the first whose character is `code`, its
columns are the bytes at `BIG_START(i) + 2*c + half`, and a blank follows. -/
def IsBigGlyph (t : BigTables) (code : Byte) (half : Nat) (bytes : List Byte) : Prop :=
  ∃ i len, t.chars[i]? = some code ∧ (∀ j, j < i → t.chars[j]? ≠ some code) ∧
    t.lens[i]? = some len ∧ bytes.length = len.toNat + 1 ∧ bytes[len.toNat]? = some 0x00#8 ∧
    ∀ c, c < len.toNat →
      bytes[c]? = t.data[2 * ((t.lens.take i).map BitVec.toNat).sum + 2 * c + half]?

/-- The bursts of one pass of a big string: one for each byte that has a big glyph (R173). -/
def bigBursts (t : BigTables) (half : Nat) (text : List Byte) : List Event :=
  text.flatMap (fun c => burst .data ((glyphBig t c half).getD []))

/-- The column bytes of one pass of a big string (R174). -/
def bigColumnsOf (t : BigTables) (half : Nat) (text : List Byte) : List Byte :=
  text.flatMap (fun c => (glyphBig t c half).getD [])

/-- How many bytes of a text have no big glyph. -/
def unmatched (t : BigTables) (text : List Byte) : Nat :=
  (text.filter (fun c => !t.chars.contains c)).length

/-! ### Commands in sequence -/

/-- Commands run one after the other; the first that stops the machine ends it (R80). -/
def execAll : List Instr → State → Host.Outcome State Fault Refusal
  | [], s => .next s
  | i :: rest, s =>
    match exec i s with
    | .next t => execAll rest t
    | .fault r => .fault r
    | .refused r => .refused r

/-- The buffer-backed companion, at a position, of a direct drawing command that draws where the cursor
is (R93). -/
def companionAt (col page : Byte) : Instr → Option Instr
  | .wchar code => some (.wcharB col page code)
  | .wstr text => some (.wstrB col page text)
  | .wicon ordinal => some (.wiconB col page ordinal)
  | .whex value => some (.whexB col page value)
  | .wbits lo hi dir => some (.wbitsB col page lo hi dir)
  | .wbignum code half => some (.wbignumB col page code half)
  | .init => none
  | .setpos _ _ => none
  | .setcell _ _ => none
  | .setpage _ => none
  | .clrline _ => none
  | .clrall => none
  | .junk => none
  | .wbigstr _ _ _ => none
  | .render _ _ => none
  | .wcharB _ _ _ => none
  | .wstrB _ _ _ => none
  | .wiconB _ _ _ => none
  | .whexB _ _ _ => none
  | .wbitsB _ _ _ _ _ => none
  | .clrlineB _ => none
  | .clrallB => none
  | .wbignumB _ _ _ _ => none
  | .wbigstrB _ _ _ => none

/-- The buffer-backed companion of a direct drawing command that positions itself (R93): CLRLINE, CLRALL,
and WBIGSTR where both of its rows are pages of the buffer (elsewhere WBIGSTR.B is dropped, R174, while
WBIGSTR masks its position, R173). -/
def companionPlaced : Instr → Option Instr
  | .clrline line => some (.clrlineB line)
  | .clrall => some .clrallB
  | .wbigstr x y text => if x.toNat ≤ 83 ∧ y.toNat ≤ 4 then some (.wbigstrB x y text) else none
  | .init => none
  | .setpos _ _ => none
  | .setcell _ _ => none
  | .setpage _ => none
  | .wchar _ => none
  | .wstr _ => none
  | .wicon _ => none
  | .whex _ => none
  | .wbits _ _ _ => none
  | .junk => none
  | .wbignum _ _ => none
  | .render _ _ => none
  | .wcharB _ _ _ => none
  | .wstrB _ _ _ => none
  | .wiconB _ _ _ => none
  | .whexB _ _ _ => none
  | .wbitsB _ _ _ _ _ => none
  | .clrlineB _ => none
  | .clrallB => none
  | .wbignumB _ _ _ _ => none
  | .wbigstrB _ _ _ => none

/-- The two states agree in everything but the diagnostic channel: HAS_DIAG, `DROPCNT` and `LASTDROP`
(R196). -/
def SameButDiag (s u : State) : Prop :=
  u.cfg.toParams = { s.cfg.toParams with hasDiag := u.cfg.hasDiag } ∧
  u.fb = s.fb ∧ u.inited = s.inited ∧ u.busy = s.busy ∧ u.held = s.held ∧ u.hostIn = s.hostIn ∧
  u.dc = s.dc ∧ u.ce = s.ce ∧ u.rst = s.rst ∧ u.trace = s.trace ∧ u.panel = s.panel ∧ u.draws = s.draws

/-- Two outcomes that agree in everything but the diagnostic channel. -/
def OutcomesSameButDiag : Host.Outcome State Fault Refusal → Host.Outcome State Fault Refusal → Prop
  | .next s, .next u => SameButDiag s u
  | .fault r, .fault q => r = q
  | .refused r, .refused q => r = q
  | _, _ => False

end Sys2Proof.Machine
end

