-- ==== Sys2Proof/Certificates/Slice0/Obligations.lean ====
section
/-! DEFINITION. The statements about the machine, from the numbered rules of spec/. -/

open Sys2Proof Sys2Proof.Machine

/-! ### Encoding and the host port -/

/-- R92, R96, R97: every command the encoding can spell, followed by any bytes, decodes to itself and
leaves exactly those bytes. -/
def Obligations.DecodeOfEncodeIsTheCommand : Prop :=
  ∀ (i : Instr) (rest : List Byte), i.wellFormed = true → decode (encode i ++ rest) = .instr i rest

/-- R92, R96, R97: the decoder finds a command only where its encoding stands, and only well-formed ones. -/
def Obligations.DecodedBytesAreAnEncoding : Prop :=
  ∀ (bytes rest : List Byte) (i : Instr),
    decode bytes = .instr i rest → i.wellFormed = true ∧ bytes = encode i ++ rest

/-- R98: every opcode value outside R92's table is a command of length 1 that is `drop(UNKNOWN_OP)`. -/
def Obligations.ReservedOpcodeIsOneByteDrop : Prop :=
  ∀ (s : State) (op : Byte) (rest : List Byte), s.busy = false → s.held ++ s.hostIn = op :: rest →
    op ∉ [0x01#8, 0x02#8, 0x03#8, 0x04#8, 0x10#8, 0x11#8, 0x12#8, 0x13#8, 0x14#8, 0x15#8, 0x16#8, 0x17#8,
      0x18#8, 0x19#8, 0x1A#8, 0x90#8, 0x91#8, 0x92#8, 0x93#8, 0x94#8, 0x95#8, 0x96#8, 0x98#8, 0x99#8] →
    ∃ t, step s = .next t ∧ Drops s t .unknownOp 1 ∧ SameTransport s t ∧ SameBuffer s t ∧
      t.held = [] ∧ t.hostIn = rest ∧ t.busy = false ∧ t.cfg = s.cfg ∧ t.inited = s.inited ∧
      t.draws = s.draws

/-- R92, R95, R103: words written out from the spec's encodings and examples decode to the commands they
stand for. -/
def Obligations.SpecWordsDecode : Prop :=
  decode [0x01#8] = .instr .init [] ∧
  decode [0x02#8, 0x0C#8, 0x02#8] = .instr (.setpos 12 2) [] ∧
  decode [0x14#8, 0xA5#8, 0x00#8, 0x01#8] = .instr (asmWbits 0x00A5#16 true) [] ∧
  decode [0x11#8, 0x48#8, 0x69#8, 0x00#8] = .instr (.wstr [0x48#8, 0x69#8]) [] ∧
  decode [0x90#8, 0x0C#8, 0x02#8, 0x41#8] = .instr (.wcharB 12 2 0x41#8) [] ∧
  decode [0x19#8, 0x0A#8, 0x02#8, 0x31#8, 0x30#8, 0x00#8, 0x16#8] =
    .instr (.wbigstr 10 2 [0x31#8, 0x30#8]) [0x16#8] ∧
  decode [0x1A#8, 0x01#8, 0x02#8] = .instr (.render 1 2) [] ∧
  decode [0x7E#8, 0x10#8, 0x41#8] = .reserved 0x7E#8 [0x10#8, 0x41#8] ∧
  decode [0x10#8] = .incomplete

/-- R90: when the bytes at the port decode to a command, a step is that command's execution, with the
command's bytes taken from the port and `BUSY` 1 while it runs and 0 after it. -/
def Obligations.StepRunsTheDecodedCommand : Prop :=
  ∀ (s : State) (i : Instr) (rest : List Byte), s.busy = false →
    decode (s.held ++ s.hostIn) = .instr i rest →
    step s = match exec i { s with held := [], hostIn := rest, busy := true } with
      | .next t => .next { t with busy := false }
      | .fault r => .fault r
      | .refused r => .refused r

/-- R101: the beginning of a command is held without any effect, no number of steps lifts the wait, and
when the host sends more bytes the command runs as if it had arrived whole. -/
def Obligations.PartialCommandHasNoEffect : Prop :=
  ∀ (s : State), s.busy = false → decode (s.held ++ s.hostIn) = .incomplete →
    (∀ n, Host.Core.run core (n + 1) s = .next { s with held := s.held ++ s.hostIn, hostIn := [] }) ∧
    ∀ more, step (hostOffer more { s with held := s.held ++ s.hostIn, hostIn := [] }) =
      step (hostOffer more s)

/-- R90, R234: while `BUSY` is 1 the block accepts no byte, and a step changes nothing. -/
def Obligations.BusyBlockAcceptsNoByte : Prop :=
  ∀ s : State, s.busy = true → step s = .next s

/-! ### Power-on -/

/-- R40, R220: the state after power-on, at reset and after any removal of power; the framebuffer lists
nothing and the panel is unknown. -/
def Obligations.PowerOnState : Prop :=
  (∀ s : State, powerCycle s = { State.powerOn s.cfg with draws := s.draws }) ∧
  State.reset = State.powerOn Config.implementation ∧
  ∀ cfg : Config, ∃ t, State.powerOn cfg = t ∧ t.cfg = cfg ∧ (∀ a, t.fb.read a = none) ∧
    t.inited = false ∧ t.busy = false ∧ t.dropCnt = 0 ∧ t.lastDrop = 0 ∧ t.held = [] ∧
    t.ce = .released ∧ t.rst = .released ∧ t.trace = [] ∧
    t.panel.px = none ∧ t.panel.py = none ∧ t.panel.pext = none ∧ ∀ a, t.panel.pram.read a = none

/-! ### INIT -/

/-- R120: the transport events of INIT in their order, the cleared framebuffer and `INITED`; everything
else but the transport is unchanged. Without the reset pulse its wire stream has the ten command bytes
and 504 zero data bytes of the rule's worked example. -/
def Obligations.InitRunsTheBringUp : Prop :=
  encode .init = [0x01#8] ∧
  ∀ s : State,
    let pulse := match s.cfg.resetPulse with
      | some p => [Event.rstAssert, .delay p.assertMs, .rstRelease, .delay p.releaseMs]
      | none => []
    let home := burst .cmd [s.cfg.pageSelBase ||| 0x00#8, s.cfg.colSelBase ||| 0x00#8]
    let events := pulse ++
      (burst .cmd [s.cfg.funcExt, s.cfg.bias, s.cfg.vop, s.cfg.funcBasic, s.cfg.dispAllOn] ++
        home ++ burst .data (blanks 504) ++ burst .cmd [s.cfg.dispNormal] ++ home)
    ∃ t, exec .init s = .next t ∧ Transmits s t events ∧ (∀ a, a < 504 → t.fb.read a = some 0x00#8) ∧
      t.inited = true ∧ SameDiag s t ∧ t.cfg = s.cfg ∧ t.busy = s.busy ∧ t.held = s.held ∧
      t.hostIn = s.hostIn ∧ t.draws = s.draws ∧
      commandStream s.dc events =
        [s.cfg.funcExt, s.cfg.bias, s.cfg.vop, s.cfg.funcBasic, s.cfg.dispAllOn,
          s.cfg.pageSelBase ||| 0x00#8, s.cfg.colSelBase ||| 0x00#8, s.cfg.dispNormal,
          s.cfg.pageSelBase ||| 0x00#8, s.cfg.colSelBase ||| 0x00#8] ∧
      dataStream s.dc events = blanks 504

/-- R125: from any state of block and panel, after INIT the framebuffer and the panel RAM are zero, the
basic instruction set is selected, the cursor is (0, 0), `INITED` is 1 and the diagnostic registers are
as before. -/
def Obligations.InitPreparesThePanel : Prop :=
  ∀ s : State, ∃ t, exec .init s = .next t ∧
    (∀ a, a < 504 → t.fb.read a = some 0x00#8 ∧ t.panel.pram.read a = some 0x00#8) ∧
    t.panel.pext = some false ∧ t.panel.px = some 0 ∧ t.panel.py = some 0 ∧ t.inited = true ∧ SameDiag s t

/-- R124: `INITED` is 1 after INIT, no step clears it, and no command tests it or, but for INIT, changes it:
with the bit the other way the command does the same. -/
def Obligations.InitedIsSetByInitAndNeverTested : Prop :=
  (∀ s : State, ∃ t, exec .init s = .next t ∧ t.inited = true) ∧
  (∀ s t : State, step s = .next t → s.inited = true → t.inited = true) ∧
  (∀ (i : Instr) (s : State) (b : Bool),
    exec i { s with inited := b } = match exec i s with
      | .next t => .next { t with inited := if i = .init then true else b }
      | .fault r => .fault r
      | .refused r => .refused r)

/-- R122: RstAssert, RstRelease and Delay come from INIT alone, at its beginning, and only with the reset
pulse configured; the two delays are recorded whatever their length. -/
def Obligations.OnlyInitPulsesTheResetLine : Prop :=
  (∀ (i : Instr) (s t : State), i ≠ .init → exec i s = .next t →
    ∃ events, t.trace = s.trace ++ events ∧ .rstAssert ∉ events ∧ .rstRelease ∉ events ∧
      ∀ n, .delay n ∉ events) ∧
  (∀ s : State, ∃ t events, exec .init s = .next t ∧
    t.trace = s.trace ++ ((match s.cfg.resetPulse with
      | some p => [Event.rstAssert, .delay p.assertMs, .rstRelease, .delay p.releaseMs]
      | none => []) ++ events) ∧
    .rstAssert ∉ events ∧ .rstRelease ∉ events ∧ ∀ n, .delay n ∉ events)

/-! ### Addressing -/

/-- R130: SETPOS sends one command burst, page select then column select, each operand masked under its
base, and never drops; operands that agree after masking are sent alike, and coordinates out of range
after masking leave the cursor of a panel in the basic set unknown. -/
def Obligations.SetposSendsBothMaskedSelects : Prop :=
  ∀ (s : State) (col page : Byte), encode (.setpos col page) = [0x02#8, col, page] ∧
    ∃ t, exec (.setpos col page) s = .next t ∧
      OnlyTransmits s t
        (burst .cmd [s.cfg.pageSelBase ||| (page &&& 0x07#8), s.cfg.colSelBase ||| (col &&& 0x7F#8)]) ∧
      (s.panel.pext = some false → 83 < col.toNat % 128 ∨ 5 < page.toNat % 8 → t.panel.cursor = none)

/-- R71, R75, R131: in the basic instruction set an in-range SETPOS makes the cursor known, whatever it was
before, and leaves the panel RAM and the instruction set as they are. -/
def Obligations.SetposPlacesThePanelCursor : Prop :=
  ∀ (s : State) (col page : Byte) (x : Fin 84) (y : Fin 6), s.panel.pext = some false →
    col.toNat % 128 = x.val → page.toNat % 8 = y.val →
    ∃ t, exec (.setpos col page) s = .next t ∧
      t.panel = { s.panel with px := some x, py := some y }

/-- R132: SETCELL positions at the cell's first pixel column, or drops BAD_CELL before any event. -/
def Obligations.SetcellPositionsOrDrops : Prop :=
  ∀ (s : State) (col row : Byte), encode (.setcell col row) = [0x03#8, col, row] ∧
    (row.toNat ≤ 5 → col.toNat ≤ 13 →
      ∃ t, exec (.setcell col row) s = .next t ∧
        OnlyTransmits s t
          (burst .cmd [s.cfg.pageSelBase ||| row, s.cfg.colSelBase ||| BitVec.ofNat 8 (col.toNat * 6)])) ∧
    (5 < row.toNat ∨ 13 < col.toNat → ∃ t, exec (.setcell col row) s = .next t ∧ OnlyDrops s t .badCell)

/-- R134: SETPAGE sends the page select alone, masked to 3 bits; in the basic set an in-range page keeps
the column, known or not, and pages 6 and 7 leave the cursor unknown. -/
def Obligations.SetpageSendsThePageSelectOnly : Prop :=
  ∀ (s : State) (page : Byte), encode (.setpage page) = [0x04#8, page] ∧
    ∃ t, exec (.setpage page) s = .next t ∧
      OnlyTransmits s t (burst .cmd [s.cfg.pageSelBase ||| (page &&& 0x07#8)]) ∧
      (s.panel.pext = some false →
        (∀ y : Fin 6, page.toNat % 8 = y.val → t.panel = { s.panel with py := some y }) ∧
        (5 < page.toNat % 8 → t.panel.cursor = none))

/-! ### The panel -/

/-- R71: the classes of command bytes at a panel. -/
def Obligations.PanelReadsCommandBytes : Prop :=
  ∀ (cfg : Config) (p : Panel) (c : Byte),
    (c = cfg.funcExt → p.command cfg.toParams c = { p with pext := some true }) ∧
    (c = cfg.funcBasic → p.command cfg.toParams c = { p with pext := some false }) ∧
    (c ≠ cfg.funcExt → c ≠ cfg.funcBasic → p.pext = some true → p.command cfg.toParams c = p) ∧
    (c ≠ cfg.funcExt → c ≠ cfg.funcBasic → p.pext = none →
      p.command cfg.toParams c = { p with px := none, py := none }) ∧
    (p.pext = some false → c &&& 0xF8#8 = cfg.pageSelBase → ∀ y : Fin 6, (c &&& 0x07#8).toNat = y.val →
      p.command cfg.toParams c = { p with py := some y }) ∧
    (p.pext = some false → c &&& 0x80#8 = cfg.colSelBase → ∀ x : Fin 84, (c &&& 0x7F#8).toNat = x.val →
      p.command cfg.toParams c = { p with px := some x }) ∧
    (p.pext = some false → c ≠ cfg.funcExt → c ≠ cfg.funcBasic → c &&& 0xF8#8 ≠ cfg.pageSelBase →
      c &&& 0x80#8 ≠ cfg.colSelBase → p.command cfg.toParams c = p)

/-- R73: out-of-range selects lose both cursor components; data at an unknown cursor makes all of the panel
RAM and both components unknown; one in-range select makes its own component known, two in either order
make both known. -/
def Obligations.UnknownCursorPoisonsThePanel : Prop :=
  ∀ (cfg : Config) (p : Panel),
    (∀ n, p.pext = some false → n < 8 → 5 < n →
      p.command cfg.toParams (cfg.pageSelBase ||| BitVec.ofNat 8 n) = { p with px := none, py := none }) ∧
    (∀ n, p.pext = some false → n < 128 → 83 < n →
      p.command cfg.toParams (cfg.colSelBase ||| BitVec.ofNat 8 n) = { p with px := none, py := none }) ∧
    (∀ (b : Byte) (bytes : List Byte), p.px = none ∨ p.py = none →
      (b :: bytes).foldl Panel.data p = { p with px := none, py := none, pram := [] }) ∧
    (∀ (x : Fin 84) (y : Fin 6), p.pext = some false →
      p.command cfg.toParams (cfg.pageSelBase ||| BitVec.ofNat 8 y.val) = { p with py := some y } ∧
      p.command cfg.toParams (cfg.colSelBase ||| BitVec.ofNat 8 x.val) = { p with px := some x } ∧
      (p.command cfg.toParams (cfg.pageSelBase ||| BitVec.ofNat 8 y.val)).command cfg.toParams
        (cfg.colSelBase ||| BitVec.ofNat 8 x.val) = { p with px := some x, py := some y } ∧
      (p.command cfg.toParams (cfg.colSelBase ||| BitVec.ofNat 8 x.val)).command cfg.toParams
        (cfg.pageSelBase ||| BitVec.ofNat 8 y.val) = { p with px := some x, py := some y })

/-- R72: a data burst at a known cursor writes consecutive bytes of the panel RAM and leaves the cursor as
many places on, in any instruction set (log 10). The wrap after the last byte of page 5 is the spec's
general knowledge (U15, log 9). -/
def Obligations.DataBurstFillsThePanelInOrder : Prop :=
  ∀ (s : State) (bytes : List Byte) (x : Fin 84) (y : Fin 6), s.panel.px = some x → s.panel.py = some y →
    bytes.length ≤ 504 →
    ∃ x' y', (sendData bytes s).panel.px = some x' ∧ (sendData bytes s).panel.py = some y' ∧
      y'.val * 84 + x'.val = (y.val * 84 + x.val + bytes.length) % 504 ∧
      (sendData bytes s).panel.pext = s.panel.pext ∧
      (∀ k b, bytes[k]? = some b →
        (sendData bytes s).panel.pram.read ((y.val * 84 + x.val + k) % 504) = some b) ∧
      (∀ a, (∀ k, k < bytes.length → a ≠ (y.val * 84 + x.val + k) % 504) →
        (sendData bytes s).panel.pram.read a = s.panel.pram.read a)

/-! ### The glyph rasterizer -/

/-- R140, R141: WCHAR sends the five font bytes and a blank in one data burst, or drops BAD_CHAR. -/
def Obligations.WcharDrawsOrDrops : Prop :=
  ∀ (s : State) (code : Byte),
    (0x20 ≤ code.toNat → code.toNat ≤ 0x81 → ∃ t, exec (.wchar code) s = .next t ∧
      OnlyTransmits s t (burst .data (fontColumns s.cfg code.toNat))) ∧
    (code.toNat < 0x20 ∨ 0x81 < code.toNat → ∃ t, exec (.wchar code) s = .next t ∧ OnlyDrops s t .badChar)

/-- R143: WSTR sends one burst for each drawable byte of its text and drops each other byte, and does
nothing else. -/
def Obligations.WstrDrawsEachCharacter : Prop :=
  ∀ (s : State) (text : List Byte), ∃ t, exec (.wstr text) s = .next t ∧
    Transmits s t (textBursts s.cfg text) ∧ Drops s t .badChar (undrawable text) ∧ SameBuffer s t ∧
    SameControl s t ∧ t.draws = s.draws

/-- R155: for a text of drawable bytes the data stream of WSTR is the concatenation of their glyphs and
its command stream is empty. -/
def Obligations.WstrRoundTrip : Prop :=
  ∀ (s : State) (text : List Byte), (∀ c ∈ text, 0x20 ≤ c.toNat ∧ c.toNat ≤ 0x81) →
    ∃ t events, exec (.wstr text) s = .next t ∧ t.trace = s.trace ++ events ∧
      dataStream s.dc events = text.flatMap (fun c => fontColumns s.cfg c.toNat) ∧
      commandStream s.dc events = []

/-- R104, R143: a string is the sequence of its characters, and WCHAR is the string of one. -/
def Obligations.StringIsTheSequenceOfItsCharacters : Prop :=
  ∀ (s : State) (code : Byte) (text : List Byte),
    exec (.wstr []) s = .next s ∧
    exec (.wstr (code :: text)) s = execAll [.wchar code, .wstr text] s

/-- R144, R145: WICON sends eight icon bytes and a blank in one data burst, for an ordinal in the table. -/
def Obligations.WiconSendsTheBitmap : Prop :=
  ∀ (s : State) (ordinal : Byte), ordinal.toNat < s.cfg.nIcons →
    ∃ t, exec (.wicon ordinal) s = .next t ∧
      OnlyTransmits s t (burst .data (iconColumns s.cfg ordinal.toNat))

/-- The model's choice, log 8, from U1: an icon read outside the table faults, in WICON always and in
WICON.B where the position is in range; an out-of-range position drops the command before the read. -/
def Obligations.IconOutsideTheTableFaults : Prop :=
  ∀ (s : State) (col page ordinal : Byte), s.cfg.nIcons ≤ ordinal.toNat →
    exec (.wicon ordinal) s = .fault (.iconOutsideTable ordinal) ∧
    (col.toNat ≤ 83 → page.toNat ≤ 5 →
      exec (.wiconB col page ordinal) s = .fault (.iconOutsideTable ordinal)) ∧
    (83 < col.toNat ∨ 5 < page.toNat →
      ∃ t, exec (.wiconB col page ordinal) s = .next t ∧ OnlyDrops s t .badBufPos)

/-- R147, R153: WHEX sends the glyphs of the two upper-case digits, high digit first, in two data bursts,
and never drops. -/
def Obligations.WhexDrawsTwoDigits : Prop :=
  ∀ (s : State) (value : Byte), encode (.whex value) = [0x13#8, value] ∧
    ∃ t, exec (.whex value) s = .next t ∧
      OnlyTransmits s t
        (burst .data (fontColumns s.cfg (hexCode (value.toNat / 16))) ++
          burst .data (fontColumns s.cfg (hexCode (value.toNat % 16))))

/-- R148, R149: WBITS sends the 80 bytes of the bit graph in one data burst. -/
def Obligations.WbitsSendsTheBitGraph : Prop :=
  ∀ (s : State) (lo hi dir : Byte), encode (.wbits lo hi dir) = [0x14#8, lo, hi, dir] ∧
    ∃ t bytes, exec (.wbits lo hi dir) s = .next t ∧ IsBitGraph s.cfg lo hi dir bytes ∧
      OnlyTransmits s t (burst .data bytes)

/-- R142: WCHAR.B writes the six glyph bytes to the framebuffer from its position, or drops BAD_BUFPOS,
then BAD_CHAR. -/
def Obligations.WcharBWritesTheGlyph : Prop :=
  ∀ (s : State) (col page code : Byte), encode (.wcharB col page code) = [0x90#8, col, page, code] ∧
    (83 < col.toNat ∨ 5 < page.toNat →
      ∃ t, exec (.wcharB col page code) s = .next t ∧ OnlyDrops s t .badBufPos) ∧
    (col.toNat ≤ 83 → page.toNat ≤ 5 → code.toNat < 0x20 ∨ 0x81 < code.toNat →
      ∃ t, exec (.wcharB col page code) s = .next t ∧ OnlyDrops s t .badChar) ∧
    (col.toNat ≤ 83 → page.toNat ≤ 5 → 0x20 ≤ code.toNat → code.toNat ≤ 0x81 →
      ∃ t, exec (.wcharB col page code) s = .next t ∧
        OnlyWrites s t (page.toNat * 84 + col.toNat) (fontColumns s.cfg code.toNat))

/-- R150: WSTR.B writes the glyphs of its drawable bytes without gaps from its position; a dropped byte
does not move the pointer; an out-of-range position drops the whole command. -/
def Obligations.WstrBWritesTheText : Prop :=
  ∀ (s : State) (col page : Byte) (text : List Byte),
    encode (.wstrB col page text) = [0x91#8, col, page] ++ text ++ [0x00#8] ∧
    (83 < col.toNat ∨ 5 < page.toNat →
      ∃ t, exec (.wstrB col page text) s = .next t ∧ OnlyDrops s t .badBufPos) ∧
    (col.toNat ≤ 83 → page.toNat ≤ 5 → ∃ t, exec (.wstrB col page text) s = .next t ∧
      WritesRun s t (page.toNat * 84 + col.toNat) (textColumns s.cfg text) ∧
      Drops s t .badChar (undrawable text) ∧ SameTransport s t ∧ SameControl s t ∧ t.draws = s.draws)

/-- R144, R146: WICON.B writes the nine icon columns, or drops BAD_BUFPOS, for an ordinal in the table. -/
def Obligations.WiconBWritesTheBitmap : Prop :=
  ∀ (s : State) (col page ordinal : Byte), ordinal.toNat < s.cfg.nIcons →
    (83 < col.toNat ∨ 5 < page.toNat →
      ∃ t, exec (.wiconB col page ordinal) s = .next t ∧ OnlyDrops s t .badBufPos) ∧
    (col.toNat ≤ 83 → page.toNat ≤ 5 → ∃ t, exec (.wiconB col page ordinal) s = .next t ∧
      OnlyWrites s t (page.toNat * 84 + col.toNat) (iconColumns s.cfg ordinal.toNat))

/-- R151: WHEX.B writes the twelve bytes of the two digits, or drops BAD_BUFPOS. -/
def Obligations.WhexBWritesTwoDigits : Prop :=
  ∀ (s : State) (col page value : Byte), encode (.whexB col page value) = [0x93#8, col, page, value] ∧
    (83 < col.toNat ∨ 5 < page.toNat →
      ∃ t, exec (.whexB col page value) s = .next t ∧ OnlyDrops s t .badBufPos) ∧
    (col.toNat ≤ 83 → page.toNat ≤ 5 → ∃ t, exec (.whexB col page value) s = .next t ∧
      OnlyWrites s t (page.toNat * 84 + col.toNat) (hexColumns s.cfg value))

/-- R152: WBITS.B writes the 80 bytes of the bit graph, or drops BAD_BUFPOS. -/
def Obligations.WbitsBWritesTheBitGraph : Prop :=
  ∀ (s : State) (col page lo hi dir : Byte),
    encode (.wbitsB col page lo hi dir) = [0x94#8, col, page, lo, hi, dir] ∧
    (83 < col.toNat ∨ 5 < page.toNat →
      ∃ t, exec (.wbitsB col page lo hi dir) s = .next t ∧ OnlyDrops s t .badBufPos) ∧
    (col.toNat ≤ 83 → page.toNat ≤ 5 →
      ∃ t bytes, exec (.wbitsB col page lo hi dir) s = .next t ∧ IsBitGraph s.cfg lo hi dir bytes ∧
        OnlyWrites s t (page.toNat * 84 + col.toNat) bytes)

/-! ### Clears and the diagnostic fill -/

/-- R160: CLRLINE positions, sends 84 zero bytes and positions back, or drops BAD_LINE; on a panel in the
basic set the row is then zero, every other byte as before, and the cursor at (0, line). -/
def Obligations.ClrlineClearsOneRow : Prop :=
  ∀ (s : State) (line : Byte), encode (.clrline line) = [0x15#8, line] ∧
    (line.toNat ≤ 5 → ∃ t, exec (.clrline line) s = .next t ∧
      (let home := burst .cmd [s.cfg.pageSelBase ||| line, s.cfg.colSelBase ||| 0x00#8]
       OnlyTransmits s t (home ++ burst .data (blanks 84) ++ home)) ∧
      (s.panel.pext = some false → t.panel.pext = some false ∧
        (∀ y : Fin 6, line.toNat = y.val → t.panel.px = some 0 ∧ t.panel.py = some y) ∧
        (∀ a, line.toNat * 84 ≤ a → a < line.toNat * 84 + 84 → t.panel.pram.read a = some 0x00#8) ∧
        (∀ a, a < line.toNat * 84 ∨ line.toNat * 84 + 84 ≤ a →
          t.panel.pram.read a = s.panel.pram.read a))) ∧
    (5 < line.toNat → ∃ t, exec (.clrline line) s = .next t ∧ OnlyDrops s t .badLine)

/-- R161: CLRLINE.B zeroes one page row of the framebuffer, or drops BAD_LINE. -/
def Obligations.ClrlineBZeroesOneRow : Prop :=
  ∀ (s : State) (line : Byte), encode (.clrlineB line) = [0x95#8, line] ∧
    (line.toNat ≤ 5 → ∃ t, exec (.clrlineB line) s = .next t ∧
      (∀ a, line.toNat * 84 ≤ a → a < line.toNat * 84 + 84 → t.fb.read a = some 0x00#8) ∧
      (∀ a, a < line.toNat * 84 ∨ line.toNat * 84 + 84 ≤ a → t.fb.read a = s.fb.read a) ∧
      SameTransport s t ∧ SameControl s t ∧ SameDiag s t ∧ t.draws = s.draws) ∧
    (5 < line.toNat → ∃ t, exec (.clrlineB line) s = .next t ∧ OnlyDrops s t .badLine)

/-- R162: CLRALL positions at (0, 0) and sends 504 zero bytes in one burst; the framebuffer is not touched,
and a second CLRALL sends the same. -/
def Obligations.ClrallSendsZeroesOnly : Prop :=
  ∀ s : State,
    let events := burst .cmd [s.cfg.pageSelBase ||| 0x00#8, s.cfg.colSelBase ||| 0x00#8] ++
      burst .data (blanks 504)
    ∃ t u, exec .clrall s = .next t ∧ OnlyTransmits s t events ∧
      exec .clrall t = .next u ∧ OnlyTransmits t u events

/-- R163: CLRALL.B zeroes the whole framebuffer, whatever it held, without a transport event, and a second
CLRALL.B changes nothing. -/
def Obligations.ClrallBZeroesTheFramebuffer : Prop :=
  encode .clrallB = [0x96#8] ∧
  ∀ s : State, ∃ t u, exec .clrallB s = .next t ∧ (∀ a, a < 504 → t.fb.read a = some 0x00#8) ∧
    SameTransport s t ∧ SameControl s t ∧ SameDiag s t ∧ t.draws = s.draws ∧
    exec .clrallB t = .next u ∧ SameBuffer t u

/-- R164, R205: JUNK sends 504 bytes in one data burst without positioning, each a fresh draw of the timer
(a free value, log 5). -/
def Obligations.JunkSendsFreeBytes : Prop :=
  ∀ s : State, ∃ t bytes, exec .junk s = .next t ∧ bytes.length = 504 ∧
    (∀ k, k < 504 → bytes[k]? = some (Config.timerSample (s.draws + k))) ∧
    Transmits s t (burst .data bytes) ∧ SameBuffer s t ∧ SameControl s t ∧ SameDiag s t ∧
    t.draws = s.draws + 504

/-! ### Big numerals -/

/-- R170: the big glyph of a code is that of the first table entry for it, and there is none exactly when
the code is not in the table. -/
def Obligations.BigGlyphIsTheFirstMatch : Prop :=
  ∀ (cfg : Config) (t : BigTables) (code : Byte) (half : Nat), cfg.big = some t → half ≤ 1 →
    (∀ bytes, glyphBig t code half = some bytes → IsBigGlyph t code half bytes) ∧
    (glyphBig t code half = none ↔ code ∉ t.chars)

/-- R171: WBIGNUM sends its glyph in one data burst, or drops BAD_HALF, then NO_BIG_MATCH. -/
def Obligations.WbignumSendsTheHalfGlyph : Prop :=
  ∀ (s : State) (t0 : BigTables) (code half : Byte), s.cfg.big = some t0 →
    encode (.wbignum code half) = [0x18#8, code, half] ∧
    (1 < half.toNat → ∃ t, exec (.wbignum code half) s = .next t ∧ OnlyDrops s t .badHalf) ∧
    (half.toNat ≤ 1 → code ∉ t0.chars →
      ∃ t, exec (.wbignum code half) s = .next t ∧ OnlyDrops s t .noBigMatch) ∧
    (half.toNat ≤ 1 → code ∈ t0.chars →
      ∃ t bytes, exec (.wbignum code half) s = .next t ∧ IsBigGlyph t0 code half.toNat bytes ∧
        OnlyTransmits s t (burst .data bytes))

/-- R172: WBIGNUM.B writes its glyph to the framebuffer, or drops BAD_BUFPOS, then BAD_HALF, then
NO_BIG_MATCH. -/
def Obligations.WbignumBWritesTheHalfGlyph : Prop :=
  ∀ (s : State) (t0 : BigTables) (col page code half : Byte), s.cfg.big = some t0 →
    encode (.wbignumB col page code half) = [0x98#8, col, page, code, half] ∧
    (83 < col.toNat ∨ 5 < page.toNat →
      ∃ t, exec (.wbignumB col page code half) s = .next t ∧ OnlyDrops s t .badBufPos) ∧
    (col.toNat ≤ 83 → page.toNat ≤ 5 →
      (1 < half.toNat →
        ∃ t, exec (.wbignumB col page code half) s = .next t ∧ OnlyDrops s t .badHalf) ∧
      (half.toNat ≤ 1 → code ∉ t0.chars →
        ∃ t, exec (.wbignumB col page code half) s = .next t ∧ OnlyDrops s t .noBigMatch) ∧
      (half.toNat ≤ 1 → code ∈ t0.chars →
        ∃ t bytes, exec (.wbignumB col page code half) s = .next t ∧
          IsBigGlyph t0 code half.toNat bytes ∧
          OnlyWrites s t (page.toNat * 84 + col.toNat) bytes))

/-- R173: WBIGSTR positions at (x, y), draws the top halves, positions at (x, y + 1) with `y + 1` masked,
and draws the bottom halves; a byte without a glyph is dropped once in each pass. -/
def Obligations.WbigstrDrawsTwoRows : Prop :=
  ∀ (s : State) (t0 : BigTables) (x y : Byte) (text : List Byte), s.cfg.big = some t0 →
    ∃ t, exec (.wbigstr x y text) s = .next t ∧
      Transmits s t
        (burst .cmd [s.cfg.pageSelBase ||| (y &&& 0x07#8), s.cfg.colSelBase ||| (x &&& 0x7F#8)] ++
          bigBursts t0 t0.topOffset.val text ++
          burst .cmd [s.cfg.pageSelBase ||| BitVec.ofNat 8 ((y.toNat + 1) % 8),
            s.cfg.colSelBase ||| (x &&& 0x7F#8)] ++
          bigBursts t0 (1 - t0.topOffset.val) text) ∧
      Drops s t .noBigMatch (2 * unmatched t0 text) ∧ SameBuffer s t ∧ SameControl s t ∧ t.draws = s.draws

/-- R174: WBIGSTR.B writes the top halves from (x, y) and then the bottom halves from (x, y + 1) of the
framebuffer, or drops BAD_BUFPOS. -/
def Obligations.WbigstrBWritesTwoRows : Prop :=
  ∀ (s : State) (t0 : BigTables) (x y : Byte) (text : List Byte), s.cfg.big = some t0 →
    encode (.wbigstrB x y text) = [0x99#8, x, y] ++ text ++ [0x00#8] ∧
    (83 < x.toNat ∨ 4 < y.toNat →
      ∃ t, exec (.wbigstrB x y text) s = .next t ∧ OnlyDrops s t .badBufPos) ∧
    (x.toNat ≤ 83 → y.toNat ≤ 4 → ∃ u t, exec (.wbigstrB x y text) s = .next t ∧
      WritesRun s u (y.toNat * 84 + x.toNat) (bigColumnsOf t0 t0.topOffset.val text) ∧
      WritesRun u t ((y.toNat + 1) * 84 + x.toNat) (bigColumnsOf t0 (1 - t0.topOffset.val) text) ∧
      Drops s t .noBigMatch (2 * unmatched t0 text) ∧ SameTransport s t ∧ SameControl s t ∧
      t.draws = s.draws)

/-- R175: without HAS_BIG the four big-numeral commands keep their lengths and each is
`drop(FEATURE_ABSENT)`, before every other check. -/
def Obligations.BigCommandsDropWithoutTheFeature : Prop :=
  ∀ (s : State) (a b c d : Byte) (text : List Byte), s.cfg.big = none →
    (encode (.wbignum a b)).length = 3 ∧ (encode (.wbigstr a b text)).length = 4 + text.length ∧
    (encode (.wbignumB a b c d)).length = 5 ∧ (encode (.wbigstrB a b text)).length = 4 + text.length ∧
    ∀ i ∈ [Instr.wbignum a b, .wbigstr a b text, .wbignumB a b c d, .wbigstrB a b text],
      ∃ t, exec i s = .next t ∧ OnlyDrops s t .featureAbsent

/-! ### The page flush -/

/-- R180, R181: RENDER positions at (0, from) and sends the framebuffer bytes of the page range in one data
burst, in ascending index; a byte nothing has written is sent as a free value (log 4); a bad range is
dropped before any event. -/
def Obligations.RenderFlushesThePageRange : Prop :=
  ∀ (s : State) (a b : Byte), encode (.render a b) = [0x1A#8, a, b] ∧
    (a.toNat ≤ b.toNat → b.toNat ≤ 5 → ∃ t bytes, exec (.render a b) s = .next t ∧
      Transmits s t (burst .cmd [s.cfg.pageSelBase ||| a, s.cfg.colSelBase ||| 0x00#8] ++
        burst .data bytes) ∧
      bytes.length = (b.toNat - a.toNat + 1) * 84 ∧
      (∀ k v, k < bytes.length → s.fb.read (a.toNat * 84 + k) = some v → bytes[k]? = some v) ∧
      SameBuffer s t ∧ SameControl s t ∧ SameDiag s t ∧ s.draws ≤ t.draws) ∧
    (5 < a.toNat ∨ 5 < b.toNat ∨ b.toNat < a.toNat →
      ∃ t, exec (.render a b) s = .next t ∧ OnlyDrops s t .badRange)

/-- R183: on a panel in the basic set, a RENDER of written pages makes the panel RAM equal to the
framebuffer on the range, leaves the rest, and leaves the cursor at (0, to + 1), or (0, 0) after page 5
(the wrap is the spec's general knowledge, log 9). -/
def Obligations.RenderCopiesThePagesToThePanel : Prop :=
  ∀ (s : State) (a b : Byte), a.toNat ≤ b.toNat → b.toNat ≤ 5 → s.panel.pext = some false →
    (∀ i, a.toNat * 84 ≤ i → i < b.toNat * 84 + 84 → (s.fb.read i).isSome = true) →
    ∃ t, exec (.render a b) s = .next t ∧
      (∀ i, a.toNat * 84 ≤ i → i < b.toNat * 84 + 84 → t.panel.pram.read i = s.fb.read i) ∧
      (∀ i, i < a.toNat * 84 ∨ b.toNat * 84 + 84 ≤ i → t.panel.pram.read i = s.panel.pram.read i) ∧
      t.panel.px = some 0 ∧ ∃ y : Fin 6, t.panel.py = some y ∧ y.val = (b.toNat + 1) % 6

/-- R182: two identical RENDERs of written pages transmit the same events. -/
def Obligations.RenderTwiceSendsTheSame : Prop :=
  ∀ (s : State) (a b : Byte),
    (∀ i, a.toNat * 84 ≤ i → i < b.toNat * 84 + 84 → (s.fb.read i).isSome = true) →
    ∃ t u events, exec (.render a b) s = .next t ∧ exec (.render a b) t = .next u ∧
      t.trace = s.trace ++ events ∧ u.trace = t.trace ++ events

/-- R77: once INIT has run, a RENDER of all pages makes the panel RAM equal to the framebuffer, byte for
byte, whatever commands ran in between (the rule asks it of buffer-backed variants and RENDER; RENDER
positions absolutely, so the others do not spoil it). -/
def Obligations.BufferPathMirrorsAfterRender : Prop :=
  ∀ (s t0 u : State) (commands : List Instr), exec .init s = .next t0 → execAll commands t0 = .next u →
    ∃ t, exec (.render 0 5) u = .next t ∧
      ∀ a, a < 504 → ∃ v, t.panel.pram.read a = some v ∧ t.fb.read a = some v

/-- R67: each of the nine buffer-backed commands changes a framebuffer exactly as its direct variant changes
a panel RAM of the same contents: the six that draw at the cursor, from the cursor's position, whatever
instruction set is selected (log 10); CLRLINE, CLRALL and WBIGSTR, which position themselves, on a panel in
the basic set. Past the last byte of page 5 this rests on the wrap the spec marks as general knowledge
(log 9). -/
def Obligations.BufferedDrawingMirrorsDirectDrawing : Prop :=
  (∀ (s u t : State) (i j : Instr) (col page : Byte) (x : Fin 84) (y : Fin 6), u.cfg = s.cfg →
    s.panel.px = some x → s.panel.py = some y → col.toNat = x.val → page.toNat = y.val →
    u.fb = s.panel.pram → companionAt col page i = some j → exec i s = .next t →
    ∃ v, exec j u = .next v ∧ v.fb = t.panel.pram) ∧
  (∀ (s u : State) (i j : Instr), u.cfg = s.cfg → s.panel.pext = some false →
    u.fb = s.panel.pram → companionPlaced i = some j →
    ∃ t v, exec i s = .next t ∧ exec j u = .next v ∧ v.fb = t.panel.pram)

/-! ### Whole-machine rules -/

/-- R190, R191: every command answers a next state, but for WICON and WICON.B with an ordinal outside the
icon table (the model's choice there, log 8). -/
def Obligations.OnlyAnIconOutsideTheTableStops : Prop :=
  ∀ (i : Instr) (s : State), (∃ t, exec i s = .next t) ∨
    ∃ ordinal : Byte, s.cfg.nIcons ≤ ordinal.toNat ∧
      exec i s = .fault (.iconOutsideTable ordinal) ∧
      (i = .wicon ordinal ∨ ∃ col page, i = .wiconB col page ordinal)

/-- R32, R93: only INIT and the nine buffer-backed variants change the framebuffer, the buffer-backed
variants perform no transport event, and only RENDER reads the framebuffer: whatever the framebuffer
holds, any other command transmits the same and leaves each byte either as it writes it in both runs or
as it found it in both. -/
def Obligations.FramebufferAccessIsConfined : Prop :=
  (∀ (i : Instr) (s t : State), exec i s = .next t → writesBuffer i = false → SameBuffer s t) ∧
  (∀ (i : Instr) (s t : State), exec i s = .next t → isBuffered i = true → SameTransport s t) ∧
  (∀ (i : Instr) (s t : State) (m : Memory), (∀ a b, i ≠ .render a b) → exec i s = .next t →
    ∃ u, exec i { s with fb := m } = .next u ∧ u.trace = t.trace ∧ u.panel = t.panel ∧
      u.dropCnt = t.dropCnt ∧ u.lastDrop = t.lastDrop ∧
      ∀ a, u.fb.read a = t.fb.read a ∨ (u.fb.read a = m.read a ∧ t.fb.read a = s.fb.read a))

/-- R34: the trace is empty at power-on and every step only adds to it. -/
def Obligations.TraceOnlyGrows : Prop :=
  State.reset.trace = [] ∧
  ∀ s t : State, step s = .next t → ∃ events, t.trace = s.trace ++ events

/-- R25, R33: no step changes the configuration, the glyph tables included. -/
def Obligations.ConfigurationNeverChanges : Prop :=
  ∀ s t : State, step s = .next t → t.cfg = s.cfg

/-- R196: two machines that differ only in HAS_DIAG and the diagnostic registers have, after any number of
steps, the same trace, framebuffer and everything else; and no step clears a register: the count never
falls, and a recorded cause stays a cause. -/
def Obligations.DiagnosticChannelIsNeutral : Prop :=
  (∀ (n : Nat) (s u : State), SameButDiag s u →
    OutcomesSameButDiag (Host.Core.run core n s) (Host.Core.run core n u)) ∧
  (∀ s t : State, step s = .next t →
    s.dropCnt.toNat ≤ t.dropCnt.toNat ∧ (s.lastDrop ≠ 0 → t.lastDrop ≠ 0))

/-- R30, R70: every step keeps the canonical form of the framebuffer and of the panel RAM. -/
def Obligations.StepKeepsMemoriesCanonical : Prop :=
  ∀ s t : State, MemoriesCanonical s → step s = .next t → MemoriesCanonical t

/-- R35, R40: between commands the chip enable and the reset line are released and `BUSY` is 0. -/
def Obligations.StepKeepsLinesIdle : Prop :=
  ∀ s t : State, LinesIdle s → step s = .next t → LinesIdle t

/-- R26, R193: `LASTDROP` never exceeds 9 and is 0 exactly while no drop has been counted; without HAS_DIAG
nothing is recorded. -/
def Obligations.StepKeepsDiagConsistent : Prop :=
  ∀ s t : State, DiagConsistent s → step s = .next t → DiagConsistent t

/-- R125, R226: once `INITED` is 1 the framebuffer stays written throughout and the panel stays in the basic
instruction set. -/
def Obligations.StepKeepsInitedPrepared : Prop :=
  ∀ s t : State, InitedPrepared s → step s = .next t → InitedPrepared t

/-- R36, R70, R76: the panel and `DC` are always what the trace since power-on makes of them. -/
def Obligations.StepKeepsPanelFollowsTrace : Prop :=
  ∀ s t : State, PanelFollowsTrace s → step s = .next t → PanelFollowsTrace t

/-- R40: the power-on state meets every invariant, and the decoder holds no command then. -/
def Obligations.ResetMeetsTheInvariants : Prop :=
  MemoriesCanonical State.reset ∧ LinesIdle State.reset ∧ DiagConsistent State.reset ∧
  InitedPrepared State.reset ∧ PanelFollowsTrace State.reset ∧ DecoderPartial State.reset

/-- R101: after every step the decoder holds at most the beginning of a command, never a whole one. -/
def Obligations.StepKeepsDecoderPartial : Prop :=
  ∀ s t : State, DecoderPartial s → step s = .next t → DecoderPartial t
end

