-- ==== Sys2Proof/Laws/Decode.lean ====
section
/-! SUPPORT. The laws of the decoder's parts. -/

namespace Sys2Proof

/-- A payload without a terminator, then the terminator: split exactly there (R96). -/
theorem splitText_append (text rest : List Byte) (h : textOk text = true) :
    splitText (text ++ strTerm :: rest) = some (text, rest) := by
  induction text with
  | nil => simp [splitText]
  | cons b text ih =>
    simp only [textOk, List.all_cons, Bool.and_eq_true, decide_eq_true_eq] at h
    have ih := ih (by simpa [textOk] using h.2)
    simp [splitText, h.1, ih]

/-- What a split says of the bytes it was made from (R96). -/
theorem splitText_some {bytes text rest : List Byte} (h : splitText bytes = some (text, rest)) :
    textOk text = true ∧ bytes = text ++ strTerm :: rest := by
  induction bytes generalizing text with
  | nil => cases h
  | cons b bytes ih =>
    simp only [splitText] at h
    split at h
    · next hb =>
      cases h
      exact ⟨rfl, by rw [hb]; rfl⟩
    · next hb =>
      split at h
      · next t r hs =>
        cases h
        obtain ⟨h1, h2⟩ := ih hs
        refine ⟨?_, by rw [h2]; rfl⟩
        simp only [textOk, List.all_cons, Bool.and_eq_true, decide_eq_true_eq]
        exact ⟨hb, h1⟩
      · cases h

/-- Bytes that hold no terminator split nowhere; more bytes only add to what follows (R101). -/
theorem splitText_more {bytes more text rest : List Byte} (h : splitText bytes = some (text, rest)) :
    splitText (bytes ++ more) = some (text, rest ++ more) := by
  obtain ⟨h1, h2⟩ := splitText_some h
  rw [h2]
  simpa using splitText_append text (rest ++ more) h1

@[simp] theorem decode_nil : decode [] = .incomplete := rfl

end Sys2Proof
end

