-- ==== Sys2Proof/Laws/Memory.lean ====
section
/-! SUPPORT. The laws of the byte memories: read after write, the canonical form, and runs of writes. -/

namespace Sys2Proof.Machine

@[simp] theorem Memory.read_nil (a : Nat) : Memory.read [] a = none := rfl

theorem Memory.read_write_same (m : Memory) (a : Nat) (b : Byte) : (m.write a b).read a = some b := by
  induction m with
  | nil => simp [Memory.write, Memory.read]
  | cons c rest ih =>
    obtain ⟨a', b'⟩ := c
    simp only [Memory.write]
    split
    · simp [Memory.read]
    · split
      · simp [Memory.read]
      · rename_i h1 h2
        simp [Memory.read, h2, ih]

theorem Memory.read_write_other (m : Memory) {a a2 : Nat} (b : Byte) (h : a2 ≠ a) :
    (m.write a b).read a2 = m.read a2 := by
  induction m with
  | nil => simp [Memory.write, Memory.read, h]
  | cons c rest ih =>
    obtain ⟨a', b'⟩ := c
    simp only [Memory.write]
    split
    · simp [Memory.read, h]
    · split
      · rename_i h1 h2
        simp only [Memory.read, h, if_false, ← h2]
      · simp only [Memory.read, ih]

/-- A byte read after a byte write (R69). -/
theorem Memory.read_write (m : Memory) (a a2 : Nat) (b : Byte) :
    (m.write a b).read a2 = if a2 = a then some b else m.read a2 := by
  split
  · next h => rw [h, Memory.read_write_same]
  · next h => exact Memory.read_write_other m b h

theorem Memory.mem_write {m : Memory} {a : Nat} {b : Byte} {c : Host.Cell} (h : c ∈ m.write a b) :
    c = (a, b) ∨ c ∈ m := by
  induction m with
  | nil => simpa [Memory.write] using h
  | cons d rest ih =>
    obtain ⟨a', b'⟩ := d
    simp only [Memory.write] at h
    split at h
    · simpa using h
    · split at h
      · rcases List.mem_cons.1 h with h | h
        · exact .inl h
        · exact .inr (List.mem_cons_of_mem _ h)
      · rcases List.mem_cons.1 h with h | h
        · exact .inr (h ▸ List.mem_cons_self)
        · exact (ih h).imp id (List.mem_cons_of_mem _)

/-- A byte write keeps the canonical form. -/
theorem Memory.write_wf {m : Memory} (hm : m.wf) {a : Nat} (b : Byte) (ha : a < 504) : (m.write a b).wf := by
  obtain ⟨hp, hb⟩ := hm
  refine ⟨?_, fun c hc => ?_⟩
  · clear hb
    induction m with
    | nil => simp [Memory.write]
    | cons d rest ih =>
      obtain ⟨a', b'⟩ := d
      have hd := List.pairwise_cons.1 hp
      simp only [Memory.write]
      split
      · next h =>
        refine List.pairwise_cons.2 ⟨fun c hc => ?_, hp⟩
        rcases List.mem_cons.1 hc with rfl | hc
        · exact h
        · exact Nat.lt_trans h (hd.1 c hc)
      · split
        · next h =>
          subst h
          exact List.pairwise_cons.2 ⟨hd.1, hd.2⟩
        · next h1 h2 =>
          refine List.pairwise_cons.2 ⟨fun c hc => ?_, ih hd.2⟩
          rcases Memory.mem_write hc with rfl | hc
          · show a' < a
            omega
          · exact hd.1 c hc
  · rcases Memory.mem_write hc with rfl | hc
    · exact ha
    · exact hb c hc

theorem Memory.nil_wf : Memory.wf [] := ⟨List.Pairwise.nil, fun _ h => by cases h⟩

@[simp] theorem nextIndex_val (i : FbIndex) : (nextIndex i).val = (i.val + 1) % 504 := by
  unfold nextIndex
  split
  · next h => exact (Nat.mod_eq_of_lt h).symm
  · next h => show 0 = _; omega

@[simp] theorem indexAfter_val (i : FbIndex) (n : Nat) : (indexAfter i n).val = (i.val + n) % 504 := by
  induction n generalizing i with
  | zero => show i.val = (i.val + 0) % 504; omega
  | succ n ih => rw [indexAfter, ih, nextIndex_val]; omega

theorem indexAfter_add (i : FbIndex) (n m : Nat) : indexAfter (indexAfter i n) m = indexAfter i (n + m) := by
  apply Fin.ext
  simp only [indexAfter_val]
  omega

@[simp] theorem Memory.writeRun_nil (m : Memory) (i : FbIndex) : m.writeRun i [] = m := rfl

@[simp] theorem Memory.writeRun_cons (m : Memory) (i : FbIndex) (b : Byte) (bytes : List Byte) :
    m.writeRun i (b :: bytes) = (m.write i.val b).writeRun (nextIndex i) bytes := rfl

/-- A run of writes keeps the canonical form. -/
theorem Memory.writeRun_wf {m : Memory} (hm : m.wf) (i : FbIndex) (bytes : List Byte) :
    (m.writeRun i bytes).wf := by
  induction bytes generalizing m i with
  | nil => exact hm
  | cons b bytes ih => exact ih (Memory.write_wf hm b i.isLt) _

/-- Two runs one after the other are one run. -/
theorem Memory.writeRun_append (m : Memory) (i : FbIndex) (xs ys : List Byte) :
    m.writeRun i (xs ++ ys) = (m.writeRun i xs).writeRun (indexAfter i xs.length) ys := by
  induction xs generalizing m i with
  | nil => rfl
  | cons x xs ih => simp only [List.cons_append, Memory.writeRun_cons, ih, List.length_cons, indexAfter]

/-- A run leaves every byte outside its indices as it was. -/
theorem Memory.read_writeRun_other (m : Memory) (i : FbIndex) (bytes : List Byte) (a : Nat)
    (h : ∀ k, k < bytes.length → a ≠ (i.val + k) % 504) : (m.writeRun i bytes).read a = m.read a := by
  induction bytes generalizing m i with
  | nil => rfl
  | cons b bytes ih =>
    rw [Memory.writeRun_cons, ih, Memory.read_write_other]
    · have := h 0 (by simp); have := i.isLt; omega
    · intro k hk
      have := h (k + 1) (by simpa using hk)
      rw [nextIndex_val]
      omega

/-- A run stores each of its bytes, unless a later byte of the run falls on the same index. -/
theorem Memory.read_writeRun_at (m : Memory) (i : FbIndex) (bytes : List Byte) (k : Nat) (b : Byte)
    (hb : bytes[k]? = some b)
    (hlast : ∀ j, k < j → j < bytes.length → (i.val + j) % 504 ≠ (i.val + k) % 504) :
    (m.writeRun i bytes).read ((i.val + k) % 504) = some b := by
  induction bytes generalizing m i k with
  | nil => simp at hb
  | cons c bytes ih =>
    rw [Memory.writeRun_cons]
    cases k with
    | zero =>
      simp only [List.getElem?_cons_zero, Option.some.injEq] at hb
      subst hb
      rw [Memory.read_writeRun_other]
      · have hi := i.isLt
        rw [show (i.val + 0) % 504 = i.val by omega, Memory.read_write_same]
      · intro j hj
        have := hlast (j + 1) (by omega) (by simpa using hj)
        rw [nextIndex_val]
        omega
    | succ k =>
      have := ih (m.write i.val c) (nextIndex i) k (by simpa using hb) (fun j hj hl => by
        have := hlast (j + 1) (by omega) (by simpa using hl)
        rw [nextIndex_val]
        omega)
      rw [nextIndex_val] at this
      rw [show (i.val + (k + 1)) % 504 = ((i.val + 1) % 504 + k) % 504 by omega]
      exact this

/-- A run no longer than the memory, read at each of its indices. -/
theorem Memory.read_writeRun_short (m : Memory) (i : FbIndex) (bytes : List Byte) (hlen : bytes.length ≤ 504)
    (k : Nat) (b : Byte) (hb : bytes[k]? = some b) :
    (m.writeRun i bytes).read ((i.val + k) % 504) = some b :=
  Memory.read_writeRun_at m i bytes k b hb (fun j hj hl => by omega)

theorem blanks_getElem? {n k : Nat} (h : k < n) : (blanks n)[k]? = some 0x00#8 := by
  simp [blanks, h]

/-- The whole memory written with zeros (R123, R163). -/
theorem Memory.read_writeRun_zeros (m : Memory) (a : Nat) (ha : a < 504) :
    (m.writeRun 0 (blanks 504)).read a = some 0x00#8 := by
  have h := Memory.read_writeRun_short m 0 (blanks 504) (by simp) a _ (blanks_getElem? ha)
  rwa [show ((0 : FbIndex).val + a) % 504 = a by simp; omega] at h

/-- A listed byte stays listed under a run. -/
theorem Memory.read_writeRun_isSome (m : Memory) (i : FbIndex) (bytes : List Byte) (a : Nat)
    (h : (m.read a).isSome = true) : ((m.writeRun i bytes).read a).isSome = true := by
  induction bytes generalizing m i with
  | nil => exact h
  | cons b bytes ih =>
    apply ih
    rw [Memory.read_write]
    split
    · rfl
    · exact h

/-- The same run keeps two memories alike at an address. -/
theorem Memory.read_writeRun_congr {m n : Memory} (i : FbIndex) (bytes : List Byte) {a : Nat}
    (h : m.read a = n.read a) : (m.writeRun i bytes).read a = (n.writeRun i bytes).read a := by
  induction bytes generalizing m n i with
  | nil => exact h
  | cons b bytes ih => exact ih (nextIndex i) (by simp only [Memory.read_write, h])

/-- The same run on two memories: it writes a byte alike in both or leaves it in both (R69). -/
theorem Memory.read_writeRun_either (m n : Memory) (i : FbIndex) (bytes : List Byte) (a : Nat) :
    (m.writeRun i bytes).read a = (n.writeRun i bytes).read a ∨
    ((m.writeRun i bytes).read a = m.read a ∧ (n.writeRun i bytes).read a = n.read a) := by
  induction bytes generalizing m n i with
  | nil => exact .inr ⟨rfl, rfl⟩
  | cons b bytes ih =>
    by_cases ha : a = i.val
    · exact .inl (Memory.read_writeRun_congr (nextIndex i) bytes (by simp only [Memory.read_write, ha, if_true]))
    · simpa only [Memory.writeRun_cons, Memory.read_write, ha, if_false] using
        ih (m.write i.val b) (n.write i.val b) (nextIndex i)

/-- A canonical memory is known by its reads. -/
theorem Memory.ext_read {m n : Memory} (hm : m.wf) (hn : n.wf) (h : ∀ a, m.read a = n.read a) : m = n := by
  have none_below : ∀ {l : Memory} {a : Nat}, (∀ c ∈ l, a < c.1) → l.read a = none := by
    intro l
    induction l with
    | nil => intros; rfl
    | cons c rest ih =>
      intro a hl
      obtain ⟨a', b'⟩ := c
      have h1 : a < a' := hl (a', b') List.mem_cons_self
      simp only [Memory.read, if_neg (Nat.ne_of_lt h1)]
      exact ih (fun c hc => hl c (List.mem_cons_of_mem _ hc))
  have key : ∀ (l k : Memory), l.Pairwise (fun c d => c.1 < d.1) → k.Pairwise (fun c d => c.1 < d.1) →
      (∀ a, l.read a = k.read a) → l = k := by
    intro l
    induction l with
    | nil =>
      intro k _ _ hr
      cases k with
      | nil => rfl
      | cons d ks =>
        obtain ⟨a', b'⟩ := d
        have := hr a'
        simp [Memory.read] at this
    | cons c rest ih =>
      intro k hl hk hr
      obtain ⟨a, b⟩ := c
      have hl' := List.pairwise_cons.1 hl
      cases k with
      | nil =>
        have := hr a
        simp [Memory.read] at this
      | cons d ks =>
        obtain ⟨a', b'⟩ := d
        have hk' := List.pairwise_cons.1 hk
        have haa : a = a' := by
          rcases Nat.lt_trichotomy a a' with hlt | heq | hgt
          · have h1 := hr a
            simp only [Memory.read, if_true, if_neg (Nat.ne_of_lt hlt)] at h1
            rw [none_below (fun c hc => Nat.lt_trans hlt (hk'.1 c hc))] at h1
            cases h1
          · exact heq
          · have h1 := hr a'
            simp only [Memory.read, if_true, if_neg (Nat.ne_of_lt hgt)] at h1
            rw [none_below (fun c hc => Nat.lt_trans hgt (hl'.1 c hc))] at h1
            cases h1
        subst haa
        have hbb : b = b' := by
          have h1 := hr a
          simpa [Memory.read] using h1
        subst hbb
        congr 1
        refine ih ks hl'.2 hk'.2 (fun x => ?_)
        have h1 := hr x
        simp only [Memory.read] at h1
        by_cases hx : x = a
        · subst hx
          rw [none_below (fun c hc => hl'.1 c hc), none_below (fun c hc => hk'.1 c hc)]
        · simpa [hx] using h1
  exact key m n hm.1 hn.1 h

end Sys2Proof.Machine
end

