-- ==== Sys2Proof/Laws/State.lean ====
section
/-! SUPPORT. One lemma for each field under each update of the state, so that no later proof unfolds a
record update. -/

namespace Sys2Proof.Machine

/-! ### drop -/

@[simp] theorem drop_cfg (c : Cause) (s : State) : (drop c s).cfg = s.cfg := rfl
@[simp] theorem drop_fb (c : Cause) (s : State) : (drop c s).fb = s.fb := rfl
@[simp] theorem drop_inited (c : Cause) (s : State) : (drop c s).inited = s.inited := rfl
@[simp] theorem drop_busy (c : Cause) (s : State) : (drop c s).busy = s.busy := rfl
@[simp] theorem drop_dropCnt (c : Cause) (s : State) :
    (drop c s).dropCnt = if s.cfg.hasDiag then countDrop s.dropCnt else s.dropCnt := rfl
@[simp] theorem drop_lastDrop (c : Cause) (s : State) :
    (drop c s).lastDrop = if s.cfg.hasDiag then causeCode c else s.lastDrop := rfl
@[simp] theorem drop_held (c : Cause) (s : State) : (drop c s).held = s.held := rfl
@[simp] theorem drop_hostIn (c : Cause) (s : State) : (drop c s).hostIn = s.hostIn := rfl
@[simp] theorem drop_dc (c : Cause) (s : State) : (drop c s).dc = s.dc := rfl
@[simp] theorem drop_ce (c : Cause) (s : State) : (drop c s).ce = s.ce := rfl
@[simp] theorem drop_rst (c : Cause) (s : State) : (drop c s).rst = s.rst := rfl
@[simp] theorem drop_trace (c : Cause) (s : State) : (drop c s).trace = s.trace := rfl
@[simp] theorem drop_panel (c : Cause) (s : State) : (drop c s).panel = s.panel := rfl
@[simp] theorem drop_draws (c : Cause) (s : State) : (drop c s).draws = s.draws := rfl

/-! ### tx -/

@[simp] theorem tx_cfg (s : State) (e : Event) : (tx s e).cfg = s.cfg := rfl
@[simp] theorem tx_fb (s : State) (e : Event) : (tx s e).fb = s.fb := rfl
@[simp] theorem tx_inited (s : State) (e : Event) : (tx s e).inited = s.inited := rfl
@[simp] theorem tx_busy (s : State) (e : Event) : (tx s e).busy = s.busy := rfl
@[simp] theorem tx_dropCnt (s : State) (e : Event) : (tx s e).dropCnt = s.dropCnt := rfl
@[simp] theorem tx_lastDrop (s : State) (e : Event) : (tx s e).lastDrop = s.lastDrop := rfl
@[simp] theorem tx_held (s : State) (e : Event) : (tx s e).held = s.held := rfl
@[simp] theorem tx_hostIn (s : State) (e : Event) : (tx s e).hostIn = s.hostIn := rfl
@[simp] theorem tx_dc (s : State) (e : Event) : (tx s e).dc = channelAfter s.dc e := rfl
@[simp] theorem tx_ce (s : State) (e : Event) : (tx s e).ce = chipEnableAfter s.ce e := rfl
@[simp] theorem tx_rst (s : State) (e : Event) : (tx s e).rst = resetLineAfter s.rst e := rfl
@[simp] theorem tx_trace (s : State) (e : Event) : (tx s e).trace = s.trace ++ [e] := rfl
@[simp] theorem tx_panel (s : State) (e : Event) :
    (tx s e).panel = s.panel.after s.cfg.toParams s.dc e := rfl
@[simp] theorem tx_draws (s : State) (e : Event) : (tx s e).draws = s.draws := rfl

/-! ### fbWrite -/

@[simp] theorem fbWrite_cfg (i : FbIndex) (bytes : List Byte) (s : State) : (fbWrite i bytes s).cfg = s.cfg := rfl
@[simp] theorem fbWrite_fb (i : FbIndex) (bytes : List Byte) (s : State) : (fbWrite i bytes s).fb = s.fb.writeRun i bytes := rfl
@[simp] theorem fbWrite_inited (i : FbIndex) (bytes : List Byte) (s : State) : (fbWrite i bytes s).inited = s.inited := rfl
@[simp] theorem fbWrite_busy (i : FbIndex) (bytes : List Byte) (s : State) : (fbWrite i bytes s).busy = s.busy := rfl
@[simp] theorem fbWrite_dropCnt (i : FbIndex) (bytes : List Byte) (s : State) : (fbWrite i bytes s).dropCnt = s.dropCnt := rfl
@[simp] theorem fbWrite_lastDrop (i : FbIndex) (bytes : List Byte) (s : State) : (fbWrite i bytes s).lastDrop = s.lastDrop := rfl
@[simp] theorem fbWrite_held (i : FbIndex) (bytes : List Byte) (s : State) : (fbWrite i bytes s).held = s.held := rfl
@[simp] theorem fbWrite_hostIn (i : FbIndex) (bytes : List Byte) (s : State) : (fbWrite i bytes s).hostIn = s.hostIn := rfl
@[simp] theorem fbWrite_dc (i : FbIndex) (bytes : List Byte) (s : State) : (fbWrite i bytes s).dc = s.dc := rfl
@[simp] theorem fbWrite_ce (i : FbIndex) (bytes : List Byte) (s : State) : (fbWrite i bytes s).ce = s.ce := rfl
@[simp] theorem fbWrite_rst (i : FbIndex) (bytes : List Byte) (s : State) : (fbWrite i bytes s).rst = s.rst := rfl
@[simp] theorem fbWrite_trace (i : FbIndex) (bytes : List Byte) (s : State) : (fbWrite i bytes s).trace = s.trace := rfl
@[simp] theorem fbWrite_panel (i : FbIndex) (bytes : List Byte) (s : State) : (fbWrite i bytes s).panel = s.panel := rfl
@[simp] theorem fbWrite_draws (i : FbIndex) (bytes : List Byte) (s : State) : (fbWrite i bytes s).draws = s.draws := rfl

/-! ### acceptCommand -/

@[simp] theorem acceptCommand_cfg (rest : List Byte) (s : State) : (acceptCommand rest s).cfg = s.cfg := rfl
@[simp] theorem acceptCommand_fb (rest : List Byte) (s : State) : (acceptCommand rest s).fb = s.fb := rfl
@[simp] theorem acceptCommand_inited (rest : List Byte) (s : State) : (acceptCommand rest s).inited = s.inited := rfl
@[simp] theorem acceptCommand_busy (rest : List Byte) (s : State) : (acceptCommand rest s).busy = true := rfl
@[simp] theorem acceptCommand_dropCnt (rest : List Byte) (s : State) : (acceptCommand rest s).dropCnt = s.dropCnt := rfl
@[simp] theorem acceptCommand_lastDrop (rest : List Byte) (s : State) : (acceptCommand rest s).lastDrop = s.lastDrop := rfl
@[simp] theorem acceptCommand_held (rest : List Byte) (s : State) : (acceptCommand rest s).held = [] := rfl
@[simp] theorem acceptCommand_hostIn (rest : List Byte) (s : State) : (acceptCommand rest s).hostIn = rest := rfl
@[simp] theorem acceptCommand_dc (rest : List Byte) (s : State) : (acceptCommand rest s).dc = s.dc := rfl
@[simp] theorem acceptCommand_ce (rest : List Byte) (s : State) : (acceptCommand rest s).ce = s.ce := rfl
@[simp] theorem acceptCommand_rst (rest : List Byte) (s : State) : (acceptCommand rest s).rst = s.rst := rfl
@[simp] theorem acceptCommand_trace (rest : List Byte) (s : State) : (acceptCommand rest s).trace = s.trace := rfl
@[simp] theorem acceptCommand_panel (rest : List Byte) (s : State) : (acceptCommand rest s).panel = s.panel := rfl
@[simp] theorem acceptCommand_draws (rest : List Byte) (s : State) : (acceptCommand rest s).draws = s.draws := rfl

/-! ### holdPartial -/

@[simp] theorem holdPartial_cfg (s : State) : (holdPartial s).cfg = s.cfg := rfl
@[simp] theorem holdPartial_fb (s : State) : (holdPartial s).fb = s.fb := rfl
@[simp] theorem holdPartial_inited (s : State) : (holdPartial s).inited = s.inited := rfl
@[simp] theorem holdPartial_busy (s : State) : (holdPartial s).busy = s.busy := rfl
@[simp] theorem holdPartial_dropCnt (s : State) : (holdPartial s).dropCnt = s.dropCnt := rfl
@[simp] theorem holdPartial_lastDrop (s : State) : (holdPartial s).lastDrop = s.lastDrop := rfl
@[simp] theorem holdPartial_held (s : State) : (holdPartial s).held = portBytes s := rfl
@[simp] theorem holdPartial_hostIn (s : State) : (holdPartial s).hostIn = [] := rfl
@[simp] theorem holdPartial_dc (s : State) : (holdPartial s).dc = s.dc := rfl
@[simp] theorem holdPartial_ce (s : State) : (holdPartial s).ce = s.ce := rfl
@[simp] theorem holdPartial_rst (s : State) : (holdPartial s).rst = s.rst := rfl
@[simp] theorem holdPartial_trace (s : State) : (holdPartial s).trace = s.trace := rfl
@[simp] theorem holdPartial_panel (s : State) : (holdPartial s).panel = s.panel := rfl
@[simp] theorem holdPartial_draws (s : State) : (holdPartial s).draws = s.draws := rfl

/-! ### completeCommand -/

@[simp] theorem completeCommand_cfg (s : State) : (completeCommand s).cfg = s.cfg := rfl
@[simp] theorem completeCommand_fb (s : State) : (completeCommand s).fb = s.fb := rfl
@[simp] theorem completeCommand_inited (s : State) : (completeCommand s).inited = s.inited := rfl
@[simp] theorem completeCommand_busy (s : State) : (completeCommand s).busy = false := rfl
@[simp] theorem completeCommand_dropCnt (s : State) : (completeCommand s).dropCnt = s.dropCnt := rfl
@[simp] theorem completeCommand_lastDrop (s : State) : (completeCommand s).lastDrop = s.lastDrop := rfl
@[simp] theorem completeCommand_held (s : State) : (completeCommand s).held = s.held := rfl
@[simp] theorem completeCommand_hostIn (s : State) : (completeCommand s).hostIn = s.hostIn := rfl
@[simp] theorem completeCommand_dc (s : State) : (completeCommand s).dc = s.dc := rfl
@[simp] theorem completeCommand_ce (s : State) : (completeCommand s).ce = s.ce := rfl
@[simp] theorem completeCommand_rst (s : State) : (completeCommand s).rst = s.rst := rfl
@[simp] theorem completeCommand_trace (s : State) : (completeCommand s).trace = s.trace := rfl
@[simp] theorem completeCommand_panel (s : State) : (completeCommand s).panel = s.panel := rfl
@[simp] theorem completeCommand_draws (s : State) : (completeCommand s).draws = s.draws := rfl

/-! ### hostOffer -/

@[simp] theorem hostOffer_cfg (bytes : List Byte) (s : State) : (hostOffer bytes s).cfg = s.cfg := rfl
@[simp] theorem hostOffer_fb (bytes : List Byte) (s : State) : (hostOffer bytes s).fb = s.fb := rfl
@[simp] theorem hostOffer_inited (bytes : List Byte) (s : State) : (hostOffer bytes s).inited = s.inited := rfl
@[simp] theorem hostOffer_busy (bytes : List Byte) (s : State) : (hostOffer bytes s).busy = s.busy := rfl
@[simp] theorem hostOffer_dropCnt (bytes : List Byte) (s : State) : (hostOffer bytes s).dropCnt = s.dropCnt := rfl
@[simp] theorem hostOffer_lastDrop (bytes : List Byte) (s : State) : (hostOffer bytes s).lastDrop = s.lastDrop := rfl
@[simp] theorem hostOffer_held (bytes : List Byte) (s : State) : (hostOffer bytes s).held = s.held := rfl
@[simp] theorem hostOffer_hostIn (bytes : List Byte) (s : State) : (hostOffer bytes s).hostIn = s.hostIn ++ bytes := rfl
@[simp] theorem hostOffer_dc (bytes : List Byte) (s : State) : (hostOffer bytes s).dc = s.dc := rfl
@[simp] theorem hostOffer_ce (bytes : List Byte) (s : State) : (hostOffer bytes s).ce = s.ce := rfl
@[simp] theorem hostOffer_rst (bytes : List Byte) (s : State) : (hostOffer bytes s).rst = s.rst := rfl
@[simp] theorem hostOffer_trace (bytes : List Byte) (s : State) : (hostOffer bytes s).trace = s.trace := rfl
@[simp] theorem hostOffer_panel (bytes : List Byte) (s : State) : (hostOffer bytes s).panel = s.panel := rfl
@[simp] theorem hostOffer_draws (bytes : List Byte) (s : State) : (hostOffer bytes s).draws = s.draws := rfl

/-! ### placeCommand -/

@[simp] theorem placeCommand_cfg (bytes : List Byte) (s : State) : (placeCommand bytes s).cfg = s.cfg := rfl
@[simp] theorem placeCommand_fb (bytes : List Byte) (s : State) : (placeCommand bytes s).fb = s.fb := rfl
@[simp] theorem placeCommand_inited (bytes : List Byte) (s : State) : (placeCommand bytes s).inited = s.inited := rfl
@[simp] theorem placeCommand_busy (bytes : List Byte) (s : State) : (placeCommand bytes s).busy = false := rfl
@[simp] theorem placeCommand_dropCnt (bytes : List Byte) (s : State) : (placeCommand bytes s).dropCnt = s.dropCnt := rfl
@[simp] theorem placeCommand_lastDrop (bytes : List Byte) (s : State) : (placeCommand bytes s).lastDrop = s.lastDrop := rfl
@[simp] theorem placeCommand_held (bytes : List Byte) (s : State) : (placeCommand bytes s).held = [] := rfl
@[simp] theorem placeCommand_hostIn (bytes : List Byte) (s : State) : (placeCommand bytes s).hostIn = bytes ++ s.hostIn := rfl
@[simp] theorem placeCommand_dc (bytes : List Byte) (s : State) : (placeCommand bytes s).dc = s.dc := rfl
@[simp] theorem placeCommand_ce (bytes : List Byte) (s : State) : (placeCommand bytes s).ce = s.ce := rfl
@[simp] theorem placeCommand_rst (bytes : List Byte) (s : State) : (placeCommand bytes s).rst = s.rst := rfl
@[simp] theorem placeCommand_trace (bytes : List Byte) (s : State) : (placeCommand bytes s).trace = s.trace := rfl
@[simp] theorem placeCommand_panel (bytes : List Byte) (s : State) : (placeCommand bytes s).panel = s.panel := rfl
@[simp] theorem placeCommand_draws (bytes : List Byte) (s : State) : (placeCommand bytes s).draws = s.draws := rfl

end Sys2Proof.Machine
end

