-- ==== Sys2Proof/Laws/Wire.lean ====
section
/-! SUPPORT. The laws of traces: what bursts carry and what levels they leave (spec/20_memory.md R61 to
R64). -/

namespace Sys2Proof.Machine

theorem wireStream_append (dc : Channel) (xs ys : List Event) :
    wireStream dc (xs ++ ys) = wireStream dc xs ++ wireStream (xs.foldl channelAfter dc) ys := by
  induction xs generalizing dc with
  | nil => rfl
  | cons e xs ih => cases e <;> simp [wireStream, channelAfter, ih]

theorem channelStream_append (ch : Channel) (xs ys : List (Channel × Byte)) :
    channelStream ch (xs ++ ys) = channelStream ch xs ++ channelStream ch ys := by
  simp [channelStream]

@[simp] theorem burst_nil (ch : Channel) : burst ch [] = [] := rfl

theorem burst_of_ne_nil (ch : Channel) {bytes : List Byte} (h : bytes ≠ []) :
    burst ch bytes =
      [selectEvent ch, .beginTransfer] ++ bytes.map Event.byte ++ [.endTransfer] := by
  cases bytes with
  | nil => exact absurd rfl h
  | cons b bytes => rfl

theorem channelAfter_bytes (dc : Channel) (bytes : List Byte) :
    (bytes.map Event.byte).foldl channelAfter dc = dc := by
  induction bytes with
  | nil => rfl
  | cons b bytes ih => simpa [channelAfter] using ih

theorem chipEnableAfter_bytes (ce : Level) (bytes : List Byte) :
    (bytes.map Event.byte).foldl chipEnableAfter ce = ce := by
  induction bytes with
  | nil => rfl
  | cons b bytes ih => simpa [chipEnableAfter] using ih

theorem resetLineAfter_bytes (rst : Level) (bytes : List Byte) :
    (bytes.map Event.byte).foldl resetLineAfter rst = rst := by
  induction bytes with
  | nil => rfl
  | cons b bytes ih => simpa [resetLineAfter] using ih

theorem wireStream_bytes (dc : Channel) (bytes : List Byte) :
    wireStream dc (bytes.map Event.byte) = bytes.map (fun b => (dc, b)) := by
  induction bytes with
  | nil => rfl
  | cons b bytes ih => simp [wireStream, ih]

/-- `DC` after a burst of at least one byte is the burst's channel. -/
theorem channelAfter_burst (ch dc : Channel) {bytes : List Byte} (h : bytes ≠ []) :
    (burst ch bytes).foldl channelAfter dc = ch := by
  rw [burst_of_ne_nil ch h]
  cases ch <;> simp [channelAfter, selectEvent, channelAfter_bytes]

/-- A burst leaves the chip enable released, if it was released before (R35). -/
theorem chipEnableAfter_burst (ch : Channel) (bytes : List Byte) :
    (burst ch bytes).foldl chipEnableAfter .released = .released := by
  cases bytes with
  | nil => rfl
  | cons b bytes => cases ch <;> simp [burst, chipEnableAfter, selectEvent]

/-- A burst does not touch the reset line. -/
theorem resetLineAfter_burst (ch : Channel) (bytes : List Byte) (rst : Level) :
    (burst ch bytes).foldl resetLineAfter rst = rst := by
  cases bytes with
  | nil => rfl
  | cons b bytes => cases ch <;> simp [burst, resetLineAfter, selectEvent, resetLineAfter_bytes]

/-- The wire stream of a burst: its bytes on its channel, whatever `DC` was (R61 to R63). -/
theorem wireStream_burst (ch dc : Channel) (bytes : List Byte) :
    wireStream dc (burst ch bytes) = bytes.map (fun b => (ch, b)) := by
  cases bytes with
  | nil => rfl
  | cons b bytes =>
    rw [burst, wireStream_append, wireStream_append]
    cases ch <;> simp [wireStream, selectEvent, wireStream_bytes, channelAfter]

theorem channelStream_map_same (ch : Channel) (bytes : List Byte) :
    channelStream ch (bytes.map (fun b => (ch, b))) = bytes := by
  induction bytes with
  | nil => rfl
  | cons b bytes ih => simpa [channelStream] using ih

theorem channelStream_map_other {ch ch' : Channel} (h : ch' ≠ ch) (bytes : List Byte) :
    channelStream ch (bytes.map (fun b => (ch', b))) = [] := by
  simp [channelStream, h]

end Sys2Proof.Machine
end

