-- ==== Sys2Proof/Laws/Transport.lean ====
section
/-! SUPPORT. Everything a sequence of transport events does to the state, said once. -/

namespace Sys2Proof.Machine

theorem panelReplay_append (params : Params) (dc : Channel) (p : Panel) (xs ys : List Event) :
    panelReplay params dc p (xs ++ ys) =
      panelReplay params (xs.foldl channelAfter dc) (panelReplay params dc p xs) ys := by
  induction xs generalizing dc p with
  | nil => rfl
  | cons e xs ih => simp [panelReplay, ih]

/-- The whole effect of a sequence of events: the transport fields follow it, nothing else changes. -/
theorem txs_eq (events : List Event) (s : State) :
    txs events s = { s with
      trace := s.trace ++ events
      dc := events.foldl channelAfter s.dc
      ce := events.foldl chipEnableAfter s.ce
      rst := events.foldl resetLineAfter s.rst
      panel := panelReplay s.cfg.toParams s.dc s.panel events } := rfl

@[simp] theorem txs_nil (s : State) : txs [] s = s := by
  simp [txs, panelReplay]

theorem txs_append (xs ys : List Event) (s : State) : txs (xs ++ ys) s = txs ys (txs xs s) := by
  simp [txs, panelReplay_append]

theorem txs_cons (e : Event) (es : List Event) (s : State) : txs (e :: es) s = txs es (tx s e) := by
  simp [txs, tx, panelReplay]

/-- A sequence of events is `Tx` of each of them in order (R80). -/
theorem txs_eq_foldl (events : List Event) (s : State) : txs events s = events.foldl tx s := by
  induction events generalizing s with
  | nil => exact txs_nil s
  | cons e es ih => rw [txs_cons, ih, List.foldl_cons]

@[simp] theorem txs_trace (es : List Event) (s : State) : (txs es s).trace = s.trace ++ es := by rw [txs_eq]
@[simp] theorem txs_dc (es : List Event) (s : State) : (txs es s).dc = es.foldl channelAfter s.dc := by
  rw [txs_eq]
@[simp] theorem txs_ce (es : List Event) (s : State) : (txs es s).ce = es.foldl chipEnableAfter s.ce := by
  rw [txs_eq]
@[simp] theorem txs_rst (es : List Event) (s : State) : (txs es s).rst = es.foldl resetLineAfter s.rst := by
  rw [txs_eq]
@[simp] theorem txs_panel (es : List Event) (s : State) :
    (txs es s).panel = panelReplay s.cfg.toParams s.dc s.panel es := by rw [txs_eq]
@[simp] theorem txs_cfg (es : List Event) (s : State) : (txs es s).cfg = s.cfg := by rw [txs_eq]
@[simp] theorem txs_fb (es : List Event) (s : State) : (txs es s).fb = s.fb := by rw [txs_eq]
@[simp] theorem txs_inited (es : List Event) (s : State) : (txs es s).inited = s.inited := by rw [txs_eq]
@[simp] theorem txs_busy (es : List Event) (s : State) : (txs es s).busy = s.busy := by rw [txs_eq]
@[simp] theorem txs_dropCnt (es : List Event) (s : State) : (txs es s).dropCnt = s.dropCnt := by rw [txs_eq]
@[simp] theorem txs_lastDrop (es : List Event) (s : State) : (txs es s).lastDrop = s.lastDrop := by rw [txs_eq]
@[simp] theorem txs_held (es : List Event) (s : State) : (txs es s).held = s.held := by rw [txs_eq]
@[simp] theorem txs_hostIn (es : List Event) (s : State) : (txs es s).hostIn = s.hostIn := by rw [txs_eq]
@[simp] theorem txs_draws (es : List Event) (s : State) : (txs es s).draws = s.draws := by rw [txs_eq]

theorem sendCmd_eq_txs (bytes : List Byte) (s : State) : sendCmd bytes s = txs (burst .cmd bytes) s := rfl
theorem sendData_eq_txs (bytes : List Byte) (s : State) : sendData bytes s = txs (burst .data bytes) s := rfl
theorem setPosition_eq_txs (col page : Nat) (s : State) :
    setPosition col page s = txs (burst .cmd (positionBytes s.cfg.toParams col page)) s := rfl

/-- A framebuffer write and a sequence of transport events do not meet. -/
theorem fbWrite_txs (i : FbIndex) (bytes : List Byte) (es : List Event) (s : State) :
    fbWrite i bytes (txs es s) = txs es (fbWrite i bytes s) := by
  rw [txs_eq, txs_eq]; rfl

/-- A drop and a sequence of transport events do not meet. -/
theorem drop_txs (c : Cause) (es : List Event) (s : State) : drop c (txs es s) = txs es (drop c s) := by
  rw [txs_eq, txs_eq]; rfl

end Sys2Proof.Machine
end

