-- ==== Sys2Proof/Laws/Drawing.lean ====
section
/-! SUPPORT. What a drawing run does, in either sink: it delivers the bytes of the items that have a
glyph, in order, and drops the others (spec/20_memory.md R66, spec/60_exceptions.md R192). -/

namespace Sys2Proof.Machine

/-! ### Drops -/

/-- `n` drops with the same cause. -/
def dropTimes (c : Cause) : Nat → State → State
  | 0, s => s
  | n + 1, s => dropTimes c n (drop c s)

theorem countDrop_toNat (n : BitVec 16) : (countDrop n).toNat = min (n.toNat + 1) 0xFFFF := by
  simp only [countDrop, BitVec.toNat_ofNat]
  omega

theorem dropTimes_frame (c : Cause) (n : Nat) (s : State) :
    dropTimes c n s = { s with
      dropCnt := (dropTimes c n s).dropCnt
      lastDrop := (dropTimes c n s).lastDrop } := by
  induction n generalizing s with
  | zero => rfl
  | succ n ih =>
    rw [dropTimes, ih]
    rfl

/-- Everything `n` drops do to the diagnostic registers. -/
theorem dropTimes_drops (c : Cause) (n : Nat) (s : State) : Drops s (dropTimes c n s) c n := by
  induction n generalizing s with
  | zero =>
    refine ⟨fun _ => ⟨?_, ?_⟩, fun _ => ⟨rfl, rfl⟩⟩
    · have := s.dropCnt.isLt
      simp only [dropTimes, Nat.add_zero]
      omega
    · simp [dropTimes]
  | succ n ih =>
    have h := ih (drop c s)
    refine ⟨fun hd => ⟨?_, ?_⟩, fun hd => ⟨?_, ?_⟩⟩
    · have h1 := (h.1 hd).1
      simp only [drop_dropCnt, hd, if_true, countDrop_toNat] at h1
      simp only [dropTimes, h1]
      omega
    · have h1 := (h.1 hd).2
      simp only [drop_lastDrop, hd, if_true] at h1
      simp [dropTimes, h1]
    · have h1 := (h.2 hd).1
      simpa [dropTimes, hd] using h1
    · have h1 := (h.2 hd).2
      simpa [dropTimes, hd] using h1

theorem drop_drops (c : Cause) (s : State) : Drops s (drop c s) c 1 := dropTimes_drops c 1 s

@[simp] theorem dropTimes_cfg (c : Cause) (n : Nat) (s : State) : (dropTimes c n s).cfg = s.cfg := by
  rw [dropTimes_frame]
@[simp] theorem dropTimes_fb (c : Cause) (n : Nat) (s : State) : (dropTimes c n s).fb = s.fb := by
  rw [dropTimes_frame]
@[simp] theorem dropTimes_inited (c : Cause) (n : Nat) (s : State) : (dropTimes c n s).inited = s.inited := by
  rw [dropTimes_frame]
@[simp] theorem dropTimes_busy (c : Cause) (n : Nat) (s : State) : (dropTimes c n s).busy = s.busy := by
  rw [dropTimes_frame]
@[simp] theorem dropTimes_held (c : Cause) (n : Nat) (s : State) : (dropTimes c n s).held = s.held := by
  rw [dropTimes_frame]
@[simp] theorem dropTimes_hostIn (c : Cause) (n : Nat) (s : State) : (dropTimes c n s).hostIn = s.hostIn := by
  rw [dropTimes_frame]
@[simp] theorem dropTimes_dc (c : Cause) (n : Nat) (s : State) : (dropTimes c n s).dc = s.dc := by
  rw [dropTimes_frame]
@[simp] theorem dropTimes_ce (c : Cause) (n : Nat) (s : State) : (dropTimes c n s).ce = s.ce := by
  rw [dropTimes_frame]
@[simp] theorem dropTimes_rst (c : Cause) (n : Nat) (s : State) : (dropTimes c n s).rst = s.rst := by
  rw [dropTimes_frame]
@[simp] theorem dropTimes_trace (c : Cause) (n : Nat) (s : State) : (dropTimes c n s).trace = s.trace := by
  rw [dropTimes_frame]
@[simp] theorem dropTimes_panel (c : Cause) (n : Nat) (s : State) : (dropTimes c n s).panel = s.panel := by
  rw [dropTimes_frame]
@[simp] theorem dropTimes_draws (c : Cause) (n : Nat) (s : State) : (dropTimes c n s).draws = s.draws := by
  rw [dropTimes_frame]

/-! ### Items -/

/-- The items of a text that have no glyph. -/
def missing (glyph : Byte → Option (List Byte)) (text : List Byte) : Nat :=
  (text.filter (fun b => (glyph b).isNone)).length

/-- The bursts of the items that have a glyph, one each. -/
def itemBursts (glyph : Byte → Option (List Byte)) (text : List Byte) : List Event :=
  text.flatMap (fun b => burst .data ((glyph b).getD []))

/-- The bytes of the items that have a glyph. -/
def itemBytes (glyph : Byte → Option (List Byte)) (text : List Byte) : List Byte :=
  text.flatMap (fun b => (glyph b).getD [])

theorem fbWrite_append (i : FbIndex) (xs ys : List Byte) (s : State) :
    fbWrite (indexAfter i xs.length) ys (fbWrite i xs s) = fbWrite i (xs ++ ys) s := by
  simp [fbWrite, Memory.writeRun_append]

theorem fbWrite_nil (i : FbIndex) (s : State) : fbWrite i [] s = s := rfl

theorem drop_fbWrite (c : Cause) (i : FbIndex) (bytes : List Byte) (s : State) :
    drop c (fbWrite i bytes s) = fbWrite i bytes (drop c s) := rfl

theorem dropTimes_txs (c : Cause) (n : Nat) (es : List Event) (s : State) :
    dropTimes c n (txs es s) = txs es (dropTimes c n s) := by
  induction n generalizing s with
  | zero => rfl
  | succ n ih => simp only [dropTimes, drop_txs, ih]

theorem dropTimes_fbWrite (c : Cause) (n : Nat) (i : FbIndex) (bytes : List Byte) (s : State) :
    dropTimes c n (fbWrite i bytes s) = fbWrite i bytes (dropTimes c n s) := by
  induction n generalizing s with
  | zero => rfl
  | succ n ih => simp only [dropTimes, drop_fbWrite, ih]

@[simp] theorem emitOrDrop_some_panel (c : Cause) (bytes : List Byte) (s : State) :
    emitOrDrop c (some bytes) ⟨s, .panel⟩ = ⟨txs (burst .data bytes) s, .panel⟩ := rfl

@[simp] theorem emitOrDrop_some_buf (c : Cause) (bytes : List Byte) (s : State) (bp : FbIndex) :
    emitOrDrop c (some bytes) ⟨s, .buf bp⟩ = ⟨fbWrite bp bytes s, .buf (indexAfter bp bytes.length)⟩ := rfl

@[simp] theorem emitOrDrop_none (c : Cause) (s : State) (sink : Sink) :
    emitOrDrop c none ⟨s, sink⟩ = ⟨drop c s, sink⟩ := rfl

theorem itemBursts_cons (glyph : Byte → Option (List Byte)) (b : Byte) (text : List Byte) :
    itemBursts glyph (b :: text) = burst .data ((glyph b).getD []) ++ itemBursts glyph text := by
  simp [itemBursts]

theorem itemBytes_cons (glyph : Byte → Option (List Byte)) (b : Byte) (text : List Byte) :
    itemBytes glyph (b :: text) = (glyph b).getD [] ++ itemBytes glyph text := by
  simp [itemBytes]

theorem missing_cons (glyph : Byte → Option (List Byte)) (b : Byte) (text : List Byte) :
    missing glyph (b :: text) = (if (glyph b).isNone then 1 else 0) + missing glyph text := by
  cases h : glyph b <;> simp [missing, h, Nat.add_comm]

/-- A run of items on the panel sink. -/
theorem items_panel (c : Cause) (glyph : Byte → Option (List Byte)) (text : List Byte) (s : State) :
    text.foldl (fun d b => emitOrDrop c (glyph b) d) ⟨s, .panel⟩ =
      ⟨txs (itemBursts glyph text) (dropTimes c (missing glyph text) s), .panel⟩ := by
  induction text generalizing s with
  | nil => simp [itemBursts, missing, dropTimes]
  | cons b text ih =>
    rw [List.foldl_cons, itemBursts_cons, missing_cons]
    cases hg : glyph b with
    | some g => simp [ih, dropTimes_txs, txs_append]
    | none => simp [ih, dropTimes, Nat.add_comm 1]

/-- A run of items on the buffer sink. -/
theorem items_buf (c : Cause) (glyph : Byte → Option (List Byte)) (text : List Byte) (bp : FbIndex)
    (s : State) :
    text.foldl (fun d b => emitOrDrop c (glyph b) d) ⟨s, .buf bp⟩ =
      ⟨fbWrite bp (itemBytes glyph text) (dropTimes c (missing glyph text) s),
        .buf (indexAfter bp (itemBytes glyph text).length)⟩ := by
  induction text generalizing s bp with
  | nil => rfl
  | cons b text ih =>
    rw [List.foldl_cons, itemBytes_cons, missing_cons]
    cases hg : glyph b with
    | some g => simp [ih, dropTimes_fbWrite, fbWrite_append, indexAfter_add]
    | none => simp [ih, dropTimes, Nat.add_comm 1]

theorem emit_cfg (bytes : List Byte) (d : Drawing) : (emit bytes d).state.cfg = d.state.cfg := by
  unfold emit
  split <;> simp [sendData_eq_txs]

theorem emitOrDrop_cfg (c : Cause) (g : Option (List Byte)) (d : Drawing) :
    (emitOrDrop c g d).state.cfg = d.state.cfg := by
  cases g with
  | some bytes => exact emit_cfg bytes d
  | none => rfl

/-- `put_string` reads the font of the configuration the run began with. -/
theorem putString_eq (text : List Byte) (d : Drawing) :
    putString text d =
      text.foldl (fun d' b => emitOrDrop .badChar (glyphChar d.state.cfg.toParams b) d') d := by
  unfold putString
  have key : ∀ (d0 : Drawing), d0.state.cfg = d.state.cfg →
      text.foldl putChar d0 =
        text.foldl (fun d' b => emitOrDrop .badChar (glyphChar d.state.cfg.toParams b) d') d0 := by
    induction text with
    | nil => intros; rfl
    | cons b text ih =>
      intro d0 h
      rw [List.foldl_cons, List.foldl_cons, ih _ (by rw [putChar, emitOrDrop_cfg, h]), putChar, h]
  exact key d rfl

theorem putHex_eq (value : Byte) (d : Drawing) :
    putHex value d = putString [hexDigit (value.toNat / 16), hexDigit (value.toNat % 16)] d := rfl

/-- A string drawn directly (R143). -/
theorem drawDirect_putString (text : List Byte) (s : State) :
    drawDirect (putString text) s =
      txs (itemBursts (glyphChar s.cfg.toParams) text)
        (dropTimes .badChar (missing (glyphChar s.cfg.toParams) text) s) := by
  rw [drawDirect, putString_eq, items_panel]

/-- A string drawn into the buffer (R150). -/
theorem drawBuffered_putString (bp : FbIndex) (text : List Byte) (s : State) :
    drawBuffered bp (putString text) s =
      fbWrite bp (itemBytes (glyphChar s.cfg.toParams) text)
        (dropTimes .badChar (missing (glyphChar s.cfg.toParams) text) s) := by
  rw [drawBuffered, putString_eq, items_buf]

theorem putBigString_eq (t : BigTables) (half : Nat) (text : List Byte) (d : Drawing) :
    putBigString t half text d =
      text.foldl (fun d' b => emitOrDrop .noBigMatch (glyphBig t b half) d') d := rfl

/-- One pass of a big string drawn directly (R173). -/
theorem drawDirect_putBigString (t : BigTables) (half : Nat) (text : List Byte) (s : State) :
    drawDirect (putBigString t half text) s =
      txs (itemBursts (fun b => glyphBig t b half) text)
        (dropTimes .noBigMatch (missing (fun b => glyphBig t b half) text) s) := by
  rw [drawDirect, putBigString_eq, items_panel]

/-- One pass of a big string drawn into the buffer (R174). -/
theorem drawBuffered_putBigString (bp : FbIndex) (t : BigTables) (half : Nat) (text : List Byte) (s : State) :
    drawBuffered bp (putBigString t half text) s =
      fbWrite bp (itemBytes (fun b => glyphBig t b half) text)
        (dropTimes .noBigMatch (missing (fun b => glyphBig t b half) text) s) := by
  rw [drawBuffered, putBigString_eq, items_buf]

/-- Bytes emitted directly: one data burst (R66). -/
theorem drawDirect_emit (bytes : List Byte) (s : State) :
    drawDirect (emit bytes) s = txs (burst .data bytes) s := rfl

/-- Bytes emitted into the buffer: one run of writes (R66). -/
theorem drawBuffered_emit (bp : FbIndex) (bytes : List Byte) (s : State) :
    drawBuffered bp (emit bytes) s = fbWrite bp bytes s := rfl

/-! ### The frames the claims are stated in -/

theorem txs_onlyTransmits (es : List Event) (s : State) : OnlyTransmits s (txs es s) es :=
  ⟨by simp [Transmits], fun _ => by simp, by simp [SameControl], by simp [SameDiag], by simp⟩

theorem drop_onlyDrops (c : Cause) (s : State) : OnlyDrops s (drop c s) c :=
  ⟨drop_drops c s, by simp [SameTransport], fun _ => rfl, by simp [SameControl], rfl⟩

theorem fbWrite_writesRun (bp : FbIndex) (bytes : List Byte) (s : State) :
    WritesRun s (fbWrite bp bytes s) bp.val bytes :=
  ⟨fun k b hb hl => Memory.read_writeRun_at s.fb bp bytes k b hb hl,
    fun a ha => Memory.read_writeRun_other s.fb bp bytes a ha⟩

theorem fbWrite_onlyWrites (bp : FbIndex) (bytes : List Byte) (s : State) :
    OnlyWrites s (fbWrite bp bytes s) bp.val bytes :=
  ⟨fbWrite_writesRun bp bytes s, by simp [SameTransport], by simp [SameControl], by simp [SameDiag], rfl⟩

theorem bufStart_some {col page : Byte} {bp : FbIndex} (h : bufStart col page = some bp) :
    col.toNat ≤ 83 ∧ page.toNat ≤ 5 ∧ bp.val = page.toNat * 84 + col.toNat := by
  unfold bufStart at h
  split at h
  · next hc =>
    cases h
    exact ⟨hc.1, hc.2, rfl⟩
  · cases h

theorem bufStart_of_le {col page : Byte} (hc : col.toNat ≤ 83) (hp : page.toNat ≤ 5) :
    ∃ bp, bufStart col page = some bp ∧ bp.val = page.toNat * 84 + col.toNat := by
  unfold bufStart
  rw [dif_pos ⟨hc, hp⟩]
  exact ⟨_, rfl, rfl⟩

theorem bufStart_none {col page : Byte} (h : 83 < col.toNat ∨ 5 < page.toNat) : bufStart col page = none := by
  unfold bufStart
  rw [dif_neg (by omega)]

end Sys2Proof.Machine
end

