-- ==== Sys2Proof/Laws/Panel.lean ====
section
/-! SUPPORT. What the panel does with the bursts the block sends (spec/20_memory.md R71 to R74). -/

namespace Sys2Proof.Machine

/-! ### Bursts -/

theorem panelReplay_bytes (params : Params) (dc : Channel) (p : Panel) (bytes : List Byte) :
    panelReplay params dc p (bytes.map Event.byte) = bytes.foldl (fun p b => p.receive params dc b) p := by
  induction bytes generalizing p with
  | nil => rfl
  | cons b bytes ih => simp [panelReplay, Panel.after, channelAfter, ih]

/-- The panel receives the bytes of a burst on its channel, in order, and nothing else (R74). -/
theorem panelReplay_burst (params : Params) (ch dc : Channel) (p : Panel) (bytes : List Byte) :
    panelReplay params dc p (burst ch bytes) = bytes.foldl (fun p b => p.receive params ch b) p := by
  cases bytes with
  | nil => rfl
  | cons b bytes =>
    rw [burst, panelReplay_append, panelReplay_append]
    cases ch <;> simp [panelReplay, Panel.after, channelAfter, selectEvent, panelReplay_bytes, Panel.receive]

/-- A data burst at the panel (R72). -/
theorem panelReplay_data (params : Params) (dc : Channel) (p : Panel) (bytes : List Byte) :
    panelReplay params dc p (burst .data bytes) = bytes.foldl Panel.data p := by
  rw [panelReplay_burst]
  rfl

/-! ### Data bytes -/

/-- The cursor's advance is the index's advance (R67, R72). -/
theorem cursorIndex_advance (x : Fin 84) (y : Fin 6) :
    cursorIndex (advanceCursor x y).1 (advanceCursor x y).2 = nextIndex (cursorIndex x y) := by
  apply Fin.ext
  rw [nextIndex_val]
  unfold advanceCursor
  split
  · simp only [cursorIndex]; omega
  · split
    · simp only [cursorIndex]; omega
    · simp only [cursorIndex]; omega

/-- A run of data bytes at a known cursor: the bytes go to consecutive indices from the cursor's, and the
cursor ends as many places on (R72). -/
theorem dataRun_known (p : Panel) (x : Fin 84) (y : Fin 6) (hx : p.px = some x) (hy : p.py = some y)
    (bytes : List Byte) :
    ∃ x' y', bytes.foldl Panel.data p =
        { p with pram := p.pram.writeRun (cursorIndex x y) bytes, px := some x', py := some y' } ∧
      cursorIndex x' y' = indexAfter (cursorIndex x y) bytes.length := by
  induction bytes generalizing p x y with
  | nil =>
    obtain ⟨px, py, pram, pext⟩ := p
    cases hx; cases hy
    exact ⟨x, y, rfl, rfl⟩
  | cons b bytes ih =>
    have hd : p.data b = { p with
        pram := p.pram.write (cursorIndex x y).val b
        px := some (advanceCursor x y).1
        py := some (advanceCursor x y).2 } := by
      simp [Panel.data, hx, hy]
    obtain ⟨x', y', he, hc⟩ := ih (p.data b) (advanceCursor x y).1 (advanceCursor x y).2
      (by rw [hd]) (by rw [hd])
    refine ⟨x', y', ?_, ?_⟩
    · rw [List.foldl_cons, he, hd, cursorIndex_advance]
      rfl
    · rw [hc, cursorIndex_advance]
      rfl

theorem data_unknown (p : Panel) (h : p.cursor = none) (b : Byte) :
    p.data b = { p with px := none, py := none, pram := [] } := by
  obtain ⟨px, py, pram, pext⟩ := p
  cases px <;> cases py <;> simp_all [Panel.data, Panel.cursor, Panel.loseCursor]

/-- A run of data bytes at an unknown cursor makes all of the panel RAM unknown (R73). -/
theorem dataRun_unknown (p : Panel) (h : p.cursor = none) (b : Byte) (bytes : List Byte) :
    (b :: bytes).foldl Panel.data p = { p with px := none, py := none, pram := [] } := by
  induction bytes generalizing p b with
  | nil => exact data_unknown p h b
  | cons c bytes ih =>
    rw [List.foldl_cons, data_unknown p h b, ih _ rfl]

/-- The cursor's index tells its components. -/
theorem cursorIndex_inj {x x' : Fin 84} {y y' : Fin 6} (h : cursorIndex x y = cursorIndex x' y') :
    x = x' ∧ y = y' := by
  have h := congrArg Fin.val h
  simp only [cursorIndex] at h
  exact ⟨Fin.ext (by omega), Fin.ext (by omega)⟩

theorem data_pram_wf (p : Panel) (h : p.pram.wf) (b : Byte) : (p.data b).pram.wf := by
  unfold Panel.data
  split
  · exact Memory.write_wf h b (cursorIndex _ _).isLt
  · exact Memory.nil_wf

theorem data_pext (p : Panel) (b : Byte) : (p.data b).pext = p.pext := by
  unfold Panel.data
  split <;> rfl

/-! ### Command bytes -/

theorem config_commandsFit (cfg : Config) : cfg.toParams.commandsFit = true := by
  have h := cfg.ok
  simp only [Params.valid, Bool.and_eq_true] at h
  exact h.2

theorem config_tablesFit (cfg : Config) : cfg.toParams.tablesFit = true := by
  have h := cfg.ok
  simp only [Params.valid, Bool.and_eq_true] at h
  exact h.1

/-- The constraints on the command bytes, taken apart. -/
theorem config_commands (cfg : Config) :
    cfg.pageSelBase &&& 0x07#8 = 0 ∧ cfg.colSelBase &&& 0x7F#8 = 0 ∧
    cfg.pageSelBase &&& 0x80#8 ≠ cfg.colSelBase ∧ cfg.funcExt ≠ cfg.funcBasic ∧
    (∀ c ∈ [cfg.funcExt, cfg.funcBasic, cfg.dispAllOn, cfg.dispNormal],
      cfg.toParams.isPageSelect c = false ∧ cfg.toParams.isColSelect c = false) ∧
    (∀ c ∈ [cfg.dispAllOn, cfg.dispNormal], c ≠ cfg.funcExt ∧ c ≠ cfg.funcBasic) := by
  have h := config_commandsFit cfg
  simp only [Params.commandsFit, Bool.and_eq_true, beq_iff_eq, bne_iff_ne, List.all_eq_true,
    Bool.not_eq_true'] at h
  obtain ⟨⟨⟨⟨⟨h1, h2⟩, h3⟩, h4⟩, h5⟩, h6⟩ := h
  exact ⟨h1, h2, h3, h4, h5, h6⟩

theorem masked_select_parts {base v mask high : Byte} (hb : base &&& mask = 0) (hm : mask ||| high = 0xFF#8)
    (hd : mask &&& high = 0) :
    (base ||| (v &&& mask)) &&& high = base ∧ (base ||| (v &&& mask)) &&& mask = v &&& mask := by
  constructor
  · ext i hi
    have h1 := congrArg (fun x => x.getLsbD i) hb
    have h2 := congrArg (fun x => x.getLsbD i) hm
    have h3 := congrArg (fun x => x.getLsbD i) hd
    have h4 : (0xFF#8).getLsbD i = true := by
      interval_cases i <;> rfl
    simp only [BitVec.getLsbD_and, BitVec.getLsbD_or, h4] at h1 h2 h3
    simp only [← BitVec.getLsbD_eq_getElem, BitVec.getLsbD_and, BitVec.getLsbD_or]
    cases hbi : base.getLsbD i <;> cases hmi : mask.getLsbD i <;> cases hhi : high.getLsbD i <;>
      simp_all
  · ext i hi
    have h1 := congrArg (fun x => x.getLsbD i) hb
    simp only [BitVec.getLsbD_and] at h1
    simp only [← BitVec.getLsbD_eq_getElem, BitVec.getLsbD_and, BitVec.getLsbD_or]
    cases hbi : base.getLsbD i <;> cases hmi : mask.getLsbD i <;> simp_all

theorem mask3_toNat (n : Nat) : (BitVec.ofNat 8 n &&& 0x07#8).toNat = n % 8 := by
  rw [BitVec.toNat_and, BitVec.toNat_ofNat]
  show (n % 256) &&& (2 ^ 3 - 1) = _
  rw [Nat.and_two_pow_sub_one_eq_mod]
  omega

theorem mask7_toNat (n : Nat) : (BitVec.ofNat 8 n &&& 0x7F#8).toNat = n % 128 := by
  rw [BitVec.toNat_and, BitVec.toNat_ofNat]
  show (n % 256) &&& (2 ^ 7 - 1) = _
  rw [Nat.and_two_pow_sub_one_eq_mod]
  omega

theorem pageSelect_isPageSelect (cfg : Config) (page : Nat) :
    cfg.toParams.isPageSelect (pageSelect cfg.toParams page) = true := by
  have h := (config_commands cfg).1
  simp only [Params.isPageSelect, pageSelect, beq_iff_eq]
  exact (masked_select_parts (high := 0xF8#8) h (by decide) (by decide)).1

theorem colSelect_isColSelect (cfg : Config) (col : Nat) :
    cfg.toParams.isColSelect (colSelect cfg.toParams col) = true := by
  have h := (config_commands cfg).2.1
  simp only [Params.isColSelect, colSelect, beq_iff_eq]
  exact (masked_select_parts (high := 0x80#8) h (by decide) (by decide)).1

/-- No byte is both a page select and a column select. -/
theorem colSelect_not_isPageSelect (cfg : Config) (col : Nat) :
    cfg.toParams.isPageSelect (colSelect cfg.toParams col) = false := by
  have hc := colSelect_isColSelect cfg col
  have hne := (config_commands cfg).2.2.1
  cases hp : cfg.toParams.isPageSelect (colSelect cfg.toParams col) with
  | false => rfl
  | true =>
    exfalso
    simp only [Params.isColSelect, Params.isPageSelect, beq_iff_eq] at hc hp
    apply hne
    rw [← hp, BitVec.and_assoc]
    exact hc

theorem pageSelect_ne_func (cfg : Config) (page : Nat) :
    pageSelect cfg.toParams page ≠ cfg.funcExt ∧ pageSelect cfg.toParams page ≠ cfg.funcBasic := by
  have h := pageSelect_isPageSelect cfg page
  have hc := (config_commands cfg).2.2.2.2.1
  constructor
  · intro he
    rw [he, (hc cfg.funcExt (by simp)).1] at h
    cases h
  · intro he
    rw [he, (hc cfg.funcBasic (by simp)).1] at h
    cases h

theorem colSelect_ne_func (cfg : Config) (col : Nat) :
    colSelect cfg.toParams col ≠ cfg.funcExt ∧ colSelect cfg.toParams col ≠ cfg.funcBasic := by
  have h := colSelect_isColSelect cfg col
  have hc := (config_commands cfg).2.2.2.2.1
  constructor
  · intro he
    rw [he, (hc cfg.funcExt (by simp)).2] at h
    cases h
  · intro he
    rw [he, (hc cfg.funcBasic (by simp)).2] at h
    cases h

/-- A page select reaches a panel in the basic set as its masked field (R71). -/
theorem command_pageSelect (cfg : Config) (p : Panel) (hp : p.pext = some false) (page : Nat) :
    p.command cfg.toParams (pageSelect cfg.toParams page) = p.selectPage (page % 8) := by
  have hn := pageSelect_ne_func cfg page
  have hm := (masked_select_parts (v := BitVec.ofNat 8 page) (high := 0xF8#8) (config_commands cfg).1
    (by decide) (by decide)).2
  rw [Panel.command, if_neg hn.1, if_neg hn.2, hp]
  simp only [Panel.basicCommand, pageSelect_isPageSelect, if_true]
  rw [pageSelect, hm, mask3_toNat]

/-- A column select reaches a panel in the basic set as its masked field (R71). -/
theorem command_colSelect (cfg : Config) (p : Panel) (hp : p.pext = some false) (col : Nat) :
    p.command cfg.toParams (colSelect cfg.toParams col) = p.selectCol (col % 128) := by
  have hn := colSelect_ne_func cfg col
  have hm := (masked_select_parts (v := BitVec.ofNat 8 col) (high := 0x80#8) (config_commands cfg).2.1
    (by decide) (by decide)).2
  rw [Panel.command, if_neg hn.1, if_neg hn.2, hp]
  simp only [Panel.basicCommand, colSelect_not_isPageSelect, colSelect_isColSelect, if_true,
    Bool.false_eq_true, if_false]
  rw [colSelect, hm, mask7_toNat]

theorem selectPage_pext (p : Panel) (n : Nat) : (p.selectPage n).pext = p.pext := by
  unfold Panel.selectPage
  split <;> rfl

theorem selectCol_pext (p : Panel) (n : Nat) : (p.selectCol n).pext = p.pext := by
  unfold Panel.selectCol
  split <;> rfl

theorem command_pram (params : Params) (p : Panel) (c : Byte) : (p.command params c).pram = p.pram := by
  unfold Panel.command
  split
  · rfl
  · split
    · rfl
    · split
      · rfl
      · unfold Panel.basicCommand
        split
        · unfold Panel.selectPage
          split <;> rfl
        · split
          · unfold Panel.selectCol
            split <;> rfl
          · rfl
      · rfl

/-- `set_position` at a panel in the basic set: page select, then column select, each masked (R130, R71). -/
theorem panelReplay_position (cfg : Config) (dc : Channel) (p : Panel) (hp : p.pext = some false)
    (col page : Nat) :
    panelReplay cfg.toParams dc p (burst .cmd (positionBytes cfg.toParams col page)) =
      (p.selectPage (page % 8)).selectCol (col % 128) := by
  rw [panelReplay_burst]
  simp only [positionBytes, List.foldl_cons, List.foldl_nil, Panel.receive]
  rw [command_pageSelect cfg p hp, command_colSelect cfg _ (by rw [selectPage_pext, hp])]

/-- An in-range `set_position` makes the cursor known (R71). -/
theorem position_known (p : Panel) (x : Fin 84) (y : Fin 6) :
    (p.selectPage y.val).selectCol x.val = { p with px := some x, py := some y } := by
  simp [Panel.selectPage, Panel.selectCol]

/-- `set_position(0, p)` of a page of the display (R71, R130). -/
theorem panelReplay_home (cfg : Config) (dc : Channel) (p : Panel) (hp : p.pext = some false) (y : Fin 6) :
    panelReplay cfg.toParams dc p (burst .cmd (positionBytes cfg.toParams 0 y.val)) =
      { p with px := some 0, py := some y } := by
  rw [panelReplay_position cfg dc p hp, Nat.mod_eq_of_lt (show y.val < 8 by omega)]
  simpa using position_known p 0 y

/-- A position off the display, after masking, leaves the cursor unknown (R73). -/
theorem position_unknown (p : Panel) (col page : Nat) (h : 83 < col ∨ 5 < page) :
    ((p.selectPage page).selectCol col).cursor = none := by
  unfold Panel.selectCol
  split
  · unfold Panel.selectPage
    split
    · omega
    · simp [Panel.loseCursor, Panel.cursor]
  · simp [Panel.loseCursor, Panel.cursor]

/-- A page field within its mask is sent as it is (R130). -/
theorem base_page (cfg : Config) (n : Nat) (h : n < 8) :
    cfg.pageSelBase ||| BitVec.ofNat 8 n = pageSelect cfg.toParams n := by
  have : BitVec.ofNat 8 n &&& 0x07#8 = BitVec.ofNat 8 n := by
    apply BitVec.eq_of_toNat_eq
    rw [mask3_toNat, BitVec.toNat_ofNat]
    omega
  simp [pageSelect, this]

/-- A column field within its mask is sent as it is (R130). -/
theorem base_col (cfg : Config) (n : Nat) (h : n < 128) :
    cfg.colSelBase ||| BitVec.ofNat 8 n = colSelect cfg.toParams n := by
  have : BitVec.ofNat 8 n &&& 0x7F#8 = BitVec.ofNat 8 n := by
    apply BitVec.eq_of_toNat_eq
    rw [mask7_toNat, BitVec.toNat_ofNat]
    omega
  simp [colSelect, this]

/-- The two selects of byte operands, in the spec's own terms (R130). -/
theorem positionBytes_bytes (cfg : Config) (col page : Byte) :
    positionBytes cfg.toParams col.toNat page.toNat =
      [cfg.pageSelBase ||| (page &&& 0x07#8), cfg.colSelBase ||| (col &&& 0x7F#8)] := by
  simp [positionBytes, pageSelect, colSelect]

/-- The two selects of the first column of a page byte within its mask. -/
theorem positionBytes_home (cfg : Config) (page : Byte) (h : page.toNat < 8) :
    positionBytes cfg.toParams 0 page.toNat = [cfg.pageSelBase ||| page, cfg.colSelBase ||| 0x00#8] := by
  have := base_page cfg page.toNat h
  rw [positionBytes, ← this]
  simp [colSelect]

/-! ### What a panel keeps -/

/-- Any sequence of events keeps the canonical form of the panel RAM (R70). -/
theorem panelReplay_wf (params : Params) (dc : Channel) (p : Panel) (events : List Event) (h : p.pram.wf) :
    (panelReplay params dc p events).pram.wf := by
  induction events generalizing dc p with
  | nil => exact h
  | cons e events ih =>
    apply ih
    cases e <;> simp only [Panel.after] <;> try exact h
    · unfold Panel.receive
      split
      · rw [command_pram]
        exact h
      · exact data_pram_wf p h _
    · exact Memory.nil_wf

/-- In the basic instruction set, any byte but `CMD_FUNC_EXT` on the command channel leaves that set
selected (R71). -/
theorem receive_pext (params : Params) (ch : Channel) (p : Panel) (b : Byte)
    (h : ch = .cmd → b ≠ params.funcExt) (hp : p.pext = some false) :
    (p.receive params ch b).pext = some false := by
  cases ch with
  | data => exact (data_pext p b).trans hp
  | cmd =>
    simp only [Panel.receive, Panel.command, if_neg (h rfl)]
    split
    · rfl
    · rw [hp]
      simp only [Panel.basicCommand]
      split
      · rw [selectPage_pext, hp]
      · split
        · rw [selectCol_pext, hp]
        · exact hp

/-- Bursts whose command bytes are never `CMD_FUNC_EXT` leave the basic instruction set selected. -/
theorem panelReplay_bursts_pext (params : Params) (dc : Channel) (p : Panel)
    (bursts : List (Channel × List Byte))
    (h : ∀ cb ∈ bursts, cb.1 = .cmd → ∀ c ∈ cb.2, c ≠ params.funcExt) (hp : p.pext = some false) :
    (panelReplay params dc p (bursts.flatMap (fun cb => burst cb.1 cb.2))).pext = some false := by
  have bytes : ∀ (ch : Channel) (l : List Byte) (q : Panel), (ch = .cmd → ∀ c ∈ l, c ≠ params.funcExt) →
      q.pext = some false → (l.foldl (fun p c => p.receive params ch c) q).pext = some false := by
    intro ch l
    induction l with
    | nil => exact fun q _ hq => hq
    | cons x l ih =>
      exact fun q hl hq => ih _ (fun hc c hm => hl hc c (List.mem_cons_of_mem _ hm))
        (receive_pext params ch q x (fun hc => hl hc x List.mem_cons_self) hq)
  induction bursts generalizing dc p with
  | nil => exact hp
  | cons cb bursts ih =>
    rw [List.flatMap_cons, panelReplay_append]
    refine ih _ _ (fun d hd => h d (List.mem_cons_of_mem _ hd)) ?_
    rw [panelReplay_burst]
    exact bytes cb.1 cb.2 p (h cb List.mem_cons_self) hp

/-- Data bursts one after the other are one run of data bytes (R66, R74). -/
theorem panelReplay_dataBursts (params : Params) (dc : Channel) (p : Panel) (l : List (List Byte)) :
    panelReplay params dc p (l.flatMap (fun b => burst .data b)) = l.flatten.foldl Panel.data p := by
  induction l generalizing dc p with
  | nil => rfl
  | cons b l ih =>
    rw [List.flatMap_cons, panelReplay_append, panelReplay_data, ih, List.flatten_cons, List.foldl_append]

/-- An in-range `set_position` and data bursts after it: one run of writes from the position (R67, R72). -/
theorem panelReplay_placed (cfg : Config) (dc : Channel) (p : Panel) (hp : p.pext = some false) (x : Fin 84)
    (y : Fin 6) (l : List (List Byte)) :
    ∃ x' y', panelReplay cfg.toParams dc p
        (burst .cmd (positionBytes cfg.toParams x.val y.val) ++ l.flatMap (fun b => burst .data b)) =
      { p with pram := p.pram.writeRun (cursorIndex x y) l.flatten, px := some x', py := some y' } := by
  rw [panelReplay_append, panelReplay_position cfg dc p hp, Nat.mod_eq_of_lt (show y.val < 8 by omega),
    Nat.mod_eq_of_lt (show x.val < 128 by omega), position_known, panelReplay_dataBursts]
  obtain ⟨x', y', he, -⟩ := dataRun_known { p with px := some x, py := some y } x y rfl rfl l.flatten
  exact ⟨x', y', he⟩

/-- The panel does not see HAS_DIAG (R196). -/
theorem panelReplay_diag (params : Params) (d : Bool) (dc : Channel) (p : Panel) (events : List Event) :
    panelReplay { params with hasDiag := d } dc p events = panelReplay params dc p events := by
  induction events generalizing dc p with
  | nil => rfl
  | cons e events ih => exact ih _ _

end Sys2Proof.Machine
end

