-- ==== Sys2Proof/Laws/Glyphs.lean ====
section
/-! SUPPORT. The glyph functions: lengths, and that every table read of a configuration's tables is inside
its table (spec/20_memory.md R54 to R58, spec/44_big_numerals.md R170). -/

namespace Sys2Proof.Machine

/-- A read inside a table is the table's byte. -/
theorem rom_of_lt {table : List Byte} {i : Nat} (h : i < table.length) : rom table i = table[i] := by
  simp [rom, h]

@[simp] theorem length_romSlice (table : List Byte) (i n : Nat) : (romSlice table i n).length = n := by
  simp [romSlice]

/-- The table lengths of a configuration (R16). -/
theorem config_tables (cfg : Config) :
    cfg.font.length = 490 ∧ cfg.icon.length = 8 * cfg.toParams.nIcons ∧ cfg.tinyOne.length = 4 ∧
    cfg.tinyZero.length = 4 := by
  have h := config_tablesFit cfg
  simp only [Params.tablesFit, Bool.and_eq_true, beq_iff_eq] at h
  exact ⟨h.1.1.1.1, h.1.1.1.2, h.1.1.2, h.1.2⟩

theorem config_bigTables (cfg : Config) (t : BigTables) (h : cfg.big = some t) :
    t.lens.length = t.chars.length ∧ t.data.length = 2 * columnsBefore t.lens t.chars.length := by
  have hf := config_tablesFit cfg
  simp only [Params.tablesFit, h, Bool.and_eq_true, beq_iff_eq] at hf
  exact hf.2

theorem charOk_iff (code : Byte) : charOk code = true ↔ 0x20 ≤ code.toNat ∧ code.toNat ≤ 0x81 := by
  simp [charOk]

/-- Every font read of a drawable character is inside FONT (R54, R140). -/
theorem font_read_inside (cfg : Config) (code : Byte) (h : charOk code = true) (k : Nat) (hk : k < 5) :
    5 * code.toNat - 160 + k < cfg.font.length := by
  have := (config_tables cfg).1
  have := (charOk_iff code).1 h
  omega

/-- Every icon read of an ordinal in the table is inside ICON (R55, R144). -/
theorem icon_read_inside (cfg : Config) (ordinal : Byte) (h : iconOk cfg.toParams ordinal = true) (k : Nat)
    (hk : k < 8) : 8 * ordinal.toNat + k < cfg.icon.length := by
  have := (config_tables cfg).2.1
  have : ordinal.toNat < cfg.toParams.nIcons := by simpa [iconOk] using h
  omega

theorem glyphChar_length {params : Params} {code : Byte} {g : List Byte}
    (h : glyphChar params code = some g) : g.length = 6 := by
  unfold glyphChar at h
  split at h
  · cases h
    simp
  · cases h

theorem glyphChar_isNone (params : Params) (code : Byte) : (glyphChar params code).isNone = !charOk code := by
  unfold glyphChar
  split <;> simp_all

@[simp] theorem length_glyphIcon (params : Params) (ordinal : Byte) : (glyphIcon params ordinal).length = 9 := by
  simp [glyphIcon]

@[simp] theorem length_tinyGlyph (params : Params) (bit : Bool) : (tinyGlyph params bit).length = 5 := by
  simp [tinyGlyph]

@[simp] theorem length_traversal (value : BitVec 16) (msb : Bool) : (traversal value msb).length = 16 := by
  cases msb <;> simp [traversal]

theorem length_flatMap_const {α : Type} (f : α → List Byte) (n : Nat) (hf : ∀ a, (f a).length = n)
    (l : List α) : (l.flatMap f).length = n * l.length := by
  induction l with
  | nil => rfl
  | cons a l ih => simp only [List.flatMap_cons, List.length_append, hf, ih, List.length_cons]; ring

/-- A bit graph is always 80 bytes (R148). -/
@[simp] theorem length_glyphBits (params : Params) (value : BitVec 16) (msb : Bool) :
    (glyphBits params value msb).length = 80 := by
  rw [glyphBits, length_flatMap_const _ 5 (length_tinyGlyph params), length_traversal]

theorem scanChars_lt {chars : List Byte} {code : Byte} {i : Nat} (h : scanChars chars code = some i) :
    i < chars.length := by
  induction chars generalizing i with
  | nil => cases h
  | cons c chars ih =>
    simp only [scanChars] at h
    split at h
    · cases h
      simp
    · split at h
      · next j hj =>
        cases h
        have := ih hj
        simpa using this
      · cases h

theorem columnsBefore_succ (lens : List Byte) (i : Nat) (h : i < lens.length) :
    columnsBefore lens (i + 1) = columnsBefore lens i + (rom lens i).toNat := by
  induction lens generalizing i with
  | nil => simp at h
  | cons len lens ih =>
    cases i with
    | zero => simp [columnsBefore, rom]
    | succ i =>
      have := ih i (by simpa using h)
      simp only [columnsBefore, this]
      simp [rom, Nat.add_assoc]

theorem columnsBefore_mono (lens : List Byte) {i j : Nat} (h : i ≤ j) :
    columnsBefore lens i ≤ columnsBefore lens j := by
  induction lens generalizing i j with
  | nil => cases i <;> cases j <;> simp [columnsBefore]
  | cons len lens ih =>
    cases i with
    | zero => simp [columnsBefore]
    | succ i =>
      cases j with
      | zero => omega
      | succ j =>
        have := ih (i := i) (j := j) (by omega)
        simp only [columnsBefore]
        omega

/-- Every big-numeral read of a matched entry is inside BIG_DATA (R170). -/
theorem big_read_inside (cfg : Config) (t : BigTables) (hb : cfg.big = some t) (code : Byte) (i half c : Nat)
    (hi : scanChars t.chars code = some i) (hh : half ≤ 1) (hc : c < (rom t.lens i).toNat) :
    bigStart t i + 2 * c + half < t.data.length := by
  obtain ⟨hl, hd⟩ := config_bigTables cfg t hb
  have hlt := scanChars_lt hi
  have h1 := columnsBefore_succ t.lens i (by omega)
  have h2 := columnsBefore_mono t.lens (i := i + 1) (j := t.chars.length) (by omega)
  rw [hd, bigStart]
  omega

theorem hexDigit_charOk (n : Nat) (h : n < 16) : charOk (hexDigit n) = true := by
  interval_cases n <;> rfl

theorem columnsBefore_eq_sum (lens : List Byte) (i : Nat) :
    columnsBefore lens i = ((lens.take i).map BitVec.toNat).sum := by
  induction lens generalizing i with
  | nil => cases i <;> simp [columnsBefore]
  | cons len lens ih => cases i <;> simp [columnsBefore, ih]

/-- Bit `i` of `value16` (R95). -/
theorem value16_bit (lo hi : Byte) (i : Nat) (h : i < 16) :
    (value16 lo hi).getLsbD i = (lo.toNat + 256 * hi.toNat).testBit i := by
  rw [value16, BitVec.getLsbD_ofNat, decide_eq_true h, Bool.true_and]

/-- The `j`-th bit of the traversal (R148). -/
theorem traversal_getElem? (value : BitVec 16) (msb : Bool) (j : Nat) (h : j < 16) :
    (traversal value msb)[j]? = some (value.getLsbD (if msb then 15 - j else j)) := by
  cases msb
  · simp [traversal, h]
  · simp only [traversal, if_true]
    rw [List.getElem?_reverse (by simpa using h)]
    have h2 : 15 - j < 16 := by omega
    simp [h2]

/-- Column `k` of group `j` in a row of five-column groups. -/
theorem flatMap_five_getElem? (f : Bool → List Byte) (hf : ∀ b, (f b).length = 5) (l : List Bool) (j k : Nat)
    (hk : k < 5) (b : Bool) (hb : l[j]? = some b) : (l.flatMap f)[5 * j + k]? = (f b)[k]? := by
  induction l generalizing j with
  | nil => simp at hb
  | cons x l ih =>
    cases j with
    | zero =>
      simp only [List.getElem?_cons_zero, Option.some.injEq] at hb
      subst hb
      rw [List.flatMap_cons, List.getElem?_append_left (by rw [hf]; omega)]
      simp
    | succ j =>
      rw [List.flatMap_cons, List.getElem?_append_right (by rw [hf]; omega), hf,
        show 5 * (j + 1) + k - 5 = 5 * j + k by omega]
      exact ih j (by simpa using hb)

end Sys2Proof.Machine
end

