-- ==== Sys2Proof/Laws/Exec.lean ====
section
/-! SUPPORT. Each command's effect as transport events, drops and framebuffer writes: what the provers cite
in place of unfolding a meaning. -/

namespace Sys2Proof.Machine

/-! ### The two sinks of one glyph -/

theorem drawDirect_putChar_ok {s : State} {code : Byte} {g : List Byte}
    (h : glyphChar s.cfg.toParams code = some g) :
    drawDirect (fun d => putChar d code) s = txs (burst .data g) s := by
  simp [drawDirect, putChar, h]

theorem drawDirect_putChar_bad {s : State} {code : Byte} (h : glyphChar s.cfg.toParams code = none) :
    drawDirect (fun d => putChar d code) s = drop .badChar s := by
  simp [drawDirect, putChar, h]

theorem drawBuffered_putChar_ok {s : State} {code : Byte} {g : List Byte} (bp : FbIndex)
    (h : glyphChar s.cfg.toParams code = some g) :
    drawBuffered bp (fun d => putChar d code) s = fbWrite bp g s := by
  simp [drawBuffered, putChar, h]

theorem drawBuffered_putChar_bad {s : State} {code : Byte} (bp : FbIndex)
    (h : glyphChar s.cfg.toParams code = none) :
    drawBuffered bp (fun d => putChar d code) s = drop .badChar s := by
  simp [drawBuffered, putChar, h]

theorem drawDirect_putBig_ok {s : State} {t : BigTables} {half : Nat} {code : Byte} {g : List Byte}
    (h : glyphBig t code half = some g) :
    drawDirect (fun d => putBig t half d code) s = txs (burst .data g) s := by
  simp [drawDirect, putBig, h]

theorem drawDirect_putBig_bad {s : State} {t : BigTables} {half : Nat} {code : Byte}
    (h : glyphBig t code half = none) :
    drawDirect (fun d => putBig t half d code) s = drop .noBigMatch s := by
  simp [drawDirect, putBig, h]

theorem drawBuffered_putBig_ok {s : State} {t : BigTables} {half : Nat} {code : Byte} {g : List Byte}
    (bp : FbIndex) (h : glyphBig t code half = some g) :
    drawBuffered bp (fun d => putBig t half d code) s = fbWrite bp g s := by
  simp [drawBuffered, putBig, h]

theorem drawBuffered_putBig_bad {s : State} {t : BigTables} {half : Nat} {code : Byte} (bp : FbIndex)
    (h : glyphBig t code half = none) :
    drawBuffered bp (fun d => putBig t half d code) s = drop .noBigMatch s := by
  simp [drawBuffered, putBig, h]

/-! ### Glyphs in the spec's own terms -/

theorem romSlice_five (table : List Byte) (i : Nat) :
    romSlice table i 5 = [rom table i, rom table (i + 1), rom table (i + 2), rom table (i + 3),
      rom table (i + 4)] := rfl

theorem glyphChar_eq (cfg : Config) (code : Byte) :
    glyphChar cfg.toParams code = if drawable code then some (fontColumns cfg code.toNat) else none := by
  have h : drawable code = charOk code := by simp [drawable, charOk]
  rw [h, glyphChar, romSlice_five]
  simp [fontColumns]

theorem glyphIcon_eq (cfg : Config) (ordinal : Byte) :
    glyphIcon cfg.toParams ordinal = iconColumns cfg ordinal.toNat := rfl

theorem itemBursts_glyphChar (cfg : Config) (text : List Byte) :
    itemBursts (glyphChar cfg.toParams) text = textBursts cfg text := by
  simp only [itemBursts, textBursts]
  congr 1
  funext c
  rw [glyphChar_eq]
  cases drawable c <;> simp

theorem itemBytes_glyphChar (cfg : Config) (text : List Byte) :
    itemBytes (glyphChar cfg.toParams) text = textColumns cfg text := by
  simp only [itemBytes, textColumns]
  congr 1
  funext c
  rw [glyphChar_eq]
  cases drawable c <;> simp

theorem missing_glyphChar (cfg : Config) (text : List Byte) :
    missing (glyphChar cfg.toParams) text = undrawable text := by
  simp only [missing, undrawable]
  congr 2
  funext c
  rw [glyphChar_eq]
  cases drawable c <;> simp

theorem hexDigit_toNat (n : Nat) (h : n < 16) : (hexDigit n).toNat = hexCode n := by
  interval_cases n <;> rfl

theorem hexDigit_drawable (n : Nat) (h : n < 16) : drawable (hexDigit n) = true := by
  interval_cases n <;> rfl

theorem textBursts_hex (cfg : Config) (value : Byte) :
    textBursts cfg [hexDigit (value.toNat / 16), hexDigit (value.toNat % 16)] =
      burst .data (fontColumns cfg (hexCode (value.toNat / 16))) ++
        burst .data (fontColumns cfg (hexCode (value.toNat % 16))) := by
  have hv := value.isLt
  have h1 : value.toNat / 16 < 16 := by omega
  have h2 : value.toNat % 16 < 16 := by omega
  simp [textBursts, hexDigit_drawable _ h1, hexDigit_drawable _ h2, hexDigit_toNat _ h1,
    hexDigit_toNat _ h2]

theorem textColumns_hex (cfg : Config) (value : Byte) :
    textColumns cfg [hexDigit (value.toNat / 16), hexDigit (value.toNat % 16)] = hexColumns cfg value := by
  have hv := value.isLt
  have h1 : value.toNat / 16 < 16 := by omega
  have h2 : value.toNat % 16 < 16 := by omega
  simp [textColumns, hexColumns, hexDigit_drawable _ h1, hexDigit_drawable _ h2, hexDigit_toNat _ h1,
    hexDigit_toNat _ h2]

theorem undrawable_hex (value : Byte) :
    undrawable [hexDigit (value.toNat / 16), hexDigit (value.toNat % 16)] = 0 := by
  have hv := value.isLt
  have h1 : value.toNat / 16 < 16 := by omega
  have h2 : value.toNat % 16 < 16 := by omega
  simp [undrawable, hexDigit_drawable _ h1, hexDigit_drawable _ h2]

theorem scanChars_none (chars : List Byte) (code : Byte) : scanChars chars code = none ↔ code ∉ chars := by
  induction chars with
  | nil => simp [scanChars]
  | cons c chars ih =>
    simp only [scanChars, List.mem_cons, not_or]
    split
    · next h => simp [h]
    · next h =>
      cases hs : scanChars chars code with
      | none => simp [ih.1 hs, Ne.symm h]
      | some i =>
        have : ¬ (code ∉ chars) := fun hn => by simp [ih.2 hn] at hs
        simp [this]

theorem scanChars_first {chars : List Byte} {code : Byte} {i : Nat} (h : scanChars chars code = some i) :
    chars[i]? = some code ∧ ∀ j, j < i → chars[j]? ≠ some code := by
  induction chars generalizing i with
  | nil => cases h
  | cons c chars ih =>
    simp only [scanChars] at h
    split at h
    · next hc =>
      cases h
      exact ⟨by simp [hc], fun j hj => by omega⟩
    · next hc =>
      split at h
      · next i' hs =>
        cases h
        obtain ⟨h1, h2⟩ := ih hs
        refine ⟨by simpa using h1, fun j hj => ?_⟩
        cases j with
        | zero => simpa using hc
        | succ j => simpa using h2 j (by omega)
      · cases h

theorem glyphBig_none (t : BigTables) (code : Byte) (half : Nat) :
    glyphBig t code half = none ↔ code ∉ t.chars := by
  rw [← scanChars_none]
  unfold glyphBig
  split <;> simp_all

theorem glyphBig_isSome (t : BigTables) (code : Byte) (half : Nat) (h : code ∈ t.chars) :
    ∃ bytes, glyphBig t code half = some bytes := by
  cases hg : glyphBig t code half with
  | some bytes => exact ⟨bytes, rfl⟩
  | none => exact absurd h ((glyphBig_none t code half).1 hg)

theorem missing_glyphBig (t : BigTables) (half : Nat) (text : List Byte) :
    missing (fun c => glyphBig t c half) text = unmatched t text := by
  simp only [missing, unmatched]
  congr 2
  funext c
  by_cases h : c ∈ t.chars
  · obtain ⟨b, hb⟩ := glyphBig_isSome t c half h
    simp [hb, h]
  · simp [(glyphBig_none t c half).2 h, h]

theorem drawable_true {c : Byte} (h1 : 0x20 ≤ c.toNat) (h2 : c.toNat ≤ 0x81) : drawable c = true := by
  simp [drawable, h1, h2]

theorem drawable_false {c : Byte} (h : c.toNat < 0x20 ∨ 0x81 < c.toNat) : drawable c = false := by
  simp [drawable]
  omega

/-- The wire stream of a text drawn directly: its columns, all on the data channel (R143, R155). -/
theorem wireStream_textBursts (cfg : Config) (dc : Channel) (text : List Byte) :
    wireStream dc (textBursts cfg text) = (textColumns cfg text).map (fun b => (Channel.data, b)) := by
  induction text generalizing dc with
  | nil => rfl
  | cons c text ih =>
    simp only [textBursts, textColumns, List.flatMap_cons] at ih ⊢
    rw [wireStream_append, ih]
    cases drawable c <;> simp [wireStream_burst, wireStream]

/-- The bit graph the model computes is the one R148 describes. -/
theorem glyphBits_isBitGraph (cfg : Config) (lo hi dir : Byte) :
    IsBitGraph cfg lo hi dir (glyphBits cfg.toParams (value16 lo hi) (msbFirst dir)) := by
  refine ⟨by simp, fun j hj => ?_⟩
  have ht := traversal_getElem? (value16 lo hi) (msbFirst dir) j hj
  have hm : (if msbFirst dir = true then 15 - j else j) = (if dir = 0x00#8 then j else 15 - j) := by
    by_cases h : dir = 0x00#8 <;> simp [msbFirst, h]
  rw [hm, value16_bit _ _ _ (by split <;> omega)] at ht
  constructor
  · intro k hk
    rw [glyphBits, flatMap_five_getElem? _ (length_tinyGlyph _) _ j k (by omega) _ ht, tinyGlyph,
      List.getElem?_append_left (by simpa using hk)]
    simp [romSlice, hk]
  · rw [glyphBits, flatMap_five_getElem? _ (length_tinyGlyph _) _ j 4 (by omega) _ ht]
    simp [tinyGlyph, romSlice]

/-- The big glyph the model computes is the one R170 describes. -/
theorem glyphBig_isBigGlyph {cfg : Config} {t : BigTables} {code : Byte} {half : Nat} {bytes : List Byte}
    (hb : cfg.big = some t) (hh : half ≤ 1) (hg : glyphBig t code half = some bytes) :
    IsBigGlyph t code half bytes := by
  unfold glyphBig at hg
  split at hg
  · next i hi =>
    cases hg
    have hlt := scanChars_lt hi
    obtain ⟨h1, h2⟩ := scanChars_first hi
    have hli : i < t.lens.length := by
      have := (config_bigTables cfg t hb).1
      omega
    have hr : rom t.lens i = t.lens[i] := rom_of_lt hli
    refine ⟨i, t.lens[i], h1, h2, by simp [hli], by simp [bigColumns, hr], by simp [bigColumns, hr], ?_⟩
    intro c hc
    have hin := big_read_inside cfg t hb code i half c hi hh (by rw [hr]; exact hc)
    rw [← columnsBefore_eq_sum, ← bigStart, bigColumns, List.getElem?_append_left (by simp [hr, hc]), hr]
    simp [hc, rom_of_lt hin, hin]
  · cases hg

/-! ### Commands in the sinks -/

/-- A string drawn directly, in the spec's terms (R143). -/
theorem exec_wstr_eq (text : List Byte) (s : State) :
    exec (.wstr text) s =
      .next (txs (textBursts s.cfg text) (dropTimes .badChar (undrawable text) s)) := by
  show Host.Outcome.next _ = _
  rw [drawDirect_putString, itemBursts_glyphChar, missing_glyphChar]

theorem exec_wchar_eq (code : Byte) (s : State) :
    exec (.wchar code) s = exec (.wstr [code]) s := rfl

theorem exec_whex_eq (value : Byte) (s : State) :
    exec (.whex value) s =
      .next (txs (burst .data (fontColumns s.cfg (hexCode (value.toNat / 16))) ++
        burst .data (fontColumns s.cfg (hexCode (value.toNat % 16)))) s) := by
  rw [← textBursts_hex]
  show exec (.wstr [hexDigit (value.toNat / 16), hexDigit (value.toNat % 16)]) s = _
  rw [exec_wstr_eq, undrawable_hex]
  rfl

/-- A drawing run at a position in range (R94). -/
theorem drawAt_some {col page : Byte} {bp : FbIndex} (h : bufStart col page = some bp)
    (run : Drawing → Drawing) (s : State) : drawAt col page run s = drawBuffered bp run s := by
  simp [drawAt, h]

theorem drawAt_none {col page : Byte} (h : bufStart col page = none) (run : Drawing → Drawing) (s : State) :
    drawAt col page run s = drop .badBufPos s := by
  simp [drawAt, h]

theorem drawAt_putString {col page : Byte} {bp : FbIndex} (h : bufStart col page = some bp)
    (text : List Byte) (s : State) :
    drawAt col page (putString text) s =
      fbWrite bp (textColumns s.cfg text) (dropTimes .badChar (undrawable text) s) := by
  rw [drawAt_some h, drawBuffered_putString, itemBytes_glyphChar, missing_glyphChar]

theorem execWcharB_eq (col page code : Byte) (s : State) :
    exec (.wcharB col page code) s = exec (.wstrB col page [code]) s := rfl

theorem exec_wstrB_eq {col page : Byte} {bp : FbIndex} (h : bufStart col page = some bp) (text : List Byte)
    (s : State) :
    exec (.wstrB col page text) s =
      .next (fbWrite bp (textColumns s.cfg text) (dropTimes .badChar (undrawable text) s)) := by
  show Host.Outcome.next _ = _
  rw [drawAt_putString h]

theorem exec_whexB_eq {col page : Byte} {bp : FbIndex} (h : bufStart col page = some bp) (value : Byte)
    (s : State) : exec (.whexB col page value) s = .next (fbWrite bp (hexColumns s.cfg value) s) := by
  show exec (.wstrB col page [hexDigit (value.toNat / 16), hexDigit (value.toNat % 16)]) s = _
  rw [exec_wstrB_eq h, textColumns_hex, undrawable_hex]
  rfl

/-! ### The clears -/

theorem lineStart_of_le {line : Byte} (h : line.toNat ≤ 5) :
    ∃ start, lineStart line = some start ∧ start.val = line.toNat * 84 := by
  unfold lineStart
  rw [dif_pos h]
  exact ⟨_, rfl, rfl⟩

theorem lineStart_none {line : Byte} (h : 5 < line.toNat) : lineStart line = none := by
  unfold lineStart
  rw [dif_neg (by omega)]

/-- CLRLINE on a page of the display: one sequence of events (R160). -/
theorem exec_clrline_eq (line : Byte) (s : State) (h : line.toNat ≤ 5) :
    exec (.clrline line) s =
      .next (txs (burst .cmd (positionBytes s.cfg.toParams 0 line.toNat) ++ burst .data (blanks 84) ++
        burst .cmd (positionBytes s.cfg.toParams 0 line.toNat)) s) := by
  obtain ⟨start, hs, -⟩ := lineStart_of_le h
  show execClrline line s = _
  simp only [execClrline, hs, setPosition_eq_txs, sendData_eq_txs, txs_append, txs_cfg]

theorem exec_clrline_bad (line : Byte) (s : State) (h : 5 < line.toNat) :
    exec (.clrline line) s = .next (drop .badLine s) := by
  show execClrline line s = _
  simp only [execClrline, lineStart_none h]

/-- CLRLINE.B on a page of the display: one run of zeros (R161). -/
theorem exec_clrlineB_eq (line : Byte) (s : State) (start : FbIndex) (h : lineStart line = some start) :
    exec (.clrlineB line) s = .next (fbWrite start (blanks 84) s) := by
  show execClrlineB line s = _
  simp only [execClrlineB, h]

theorem exec_clrlineB_bad (line : Byte) (s : State) (h : 5 < line.toNat) :
    exec (.clrlineB line) s = .next (drop .badLine s) := by
  show execClrlineB line s = _
  simp only [execClrlineB, lineStart_none h]

/-- CLRALL: one sequence of events (R162). -/
theorem exec_clrall_eq (s : State) :
    exec .clrall s =
      .next (txs (burst .cmd (positionBytes s.cfg.toParams 0 0) ++ burst .data (blanks 504)) s) := by
  show execClrall s = _
  simp only [execClrall, setPosition_eq_txs, sendData_eq_txs, txs_append]

/-- CLRALL.B: one run of zeros over the whole framebuffer (R163). -/
theorem exec_clrallB_eq (s : State) : exec .clrallB s = .next (fbWrite 0 (blanks 504) s) := rfl

/-! ### INIT -/

/-- The transport events of INIT (R120). -/
def initEvents (params : Params) : List Event :=
  pulseEvents params ++
    (burst .cmd (bringUpBytes params) ++ burst .cmd (positionBytes params 0 0) ++ burst .data (blanks 504) ++
      burst .cmd [params.dispNormal] ++ burst .cmd (positionBytes params 0 0))

/-- INIT: its events, the framebuffer zeroed, and `INITED` set (R120, R123, R124). -/
theorem exec_init_eq (s : State) :
    exec .init s =
      .next { txs (initEvents s.cfg.toParams) (fbWrite 0 (blanks 504) s) with inited := true } := by
  show execInit s = _
  simp only [execInit, initEvents, sendCmd_eq_txs, sendData_eq_txs, setPosition_eq_txs, fbWrite_txs,
    txs_append, txs_cfg, fbWrite_cfg]

/-- The bring-up burst leaves the panel in the basic instruction set (R121). -/
theorem bringUp_pext (cfg : Config) (dc : Channel) (p : Panel) :
    (panelReplay cfg.toParams dc p (burst .cmd (bringUpBytes cfg.toParams))).pext = some false := by
  have hc := config_commands cfg
  have hne := hc.2.2.2.2.2 cfg.dispAllOn (by simp)
  have hsel := hc.2.2.2.2.1 cfg.dispAllOn (by simp)
  rw [panelReplay_burst]
  simp only [bringUpBytes, List.foldl_cons, List.foldl_nil, Panel.receive]
  generalize ((p.command cfg.toParams cfg.funcExt).command cfg.toParams cfg.bias).command cfg.toParams
    cfg.vop = q
  have hb : q.command cfg.toParams cfg.funcBasic = { q with pext := some false } := by
    simp [Panel.command, Ne.symm hc.2.2.2.1]
  rw [hb]
  simp [Panel.command, hne.1, hne.2, Panel.basicCommand, hsel.1, hsel.2]

/-- The display-normal byte changes nothing that the panel's environment model holds (R71). -/
theorem dispNormal_panel (cfg : Config) (dc : Channel) (p : Panel) (hp : p.pext = some false) :
    panelReplay cfg.toParams dc p (burst .cmd [cfg.dispNormal]) = p := by
  have hc := config_commands cfg
  have hne := hc.2.2.2.2.2 cfg.dispNormal (by simp)
  have hsel := hc.2.2.2.2.1 cfg.dispNormal (by simp)
  rw [panelReplay_burst]
  simp [Panel.receive, Panel.command, hne.1, hne.2, hp, Panel.basicCommand, hsel.1, hsel.2]

/-- The panel after INIT, from any state (R125). -/
theorem init_panel (cfg : Config) (dc : Channel) (p : Panel) :
    ∃ m : Memory, panelReplay cfg.toParams dc p (initEvents cfg.toParams) = ⟨some 0, some 0, m, some false⟩ ∧
      ∀ a, a < 504 → m.read a = some 0x00#8 := by
  simp only [initEvents, panelReplay_append]
  generalize hp : panelReplay cfg.toParams _ _ (burst .cmd (bringUpBytes cfg.toParams)) = q
  have hq : q.pext = some false := by rw [← hp]; exact bringUp_pext _ _ _
  have home := fun (dc) (p : Panel) (hp : p.pext = some false) => panelReplay_home cfg dc p hp 0
  simp only [show ((0 : Fin 6).val) = 0 from rfl] at home
  obtain ⟨x', y', he, -⟩ := dataRun_known { q with px := some 0, py := some 0 } 0 0 rfl rfl (blanks 504)
  refine ⟨q.pram.writeRun 0 (blanks 504), ?_, fun a ha => Memory.read_writeRun_zeros _ a ha⟩
  rw [home _ q hq, panelReplay_data, he, dispNormal_panel _ _ _ (by exact hq), home _ _ (by exact hq)]
  dsimp only
  rw [hq]
  rfl

/-! ### The page flush -/

/-- The inversion of a page range read: its length, its written bytes, and its draws (R180, U2). -/
theorem fbReadRun_spec (fb : Memory) (draws a n : Nat) :
    (fbReadRun fb draws a n).1.length = n ∧ draws ≤ (fbReadRun fb draws a n).2 ∧
    (∀ k v, k < n → fb.read (a + k) = some v → (fbReadRun fb draws a n).1[k]? = some v) := by
  induction n generalizing draws a with
  | zero => exact ⟨rfl, Nat.le_refl _, fun k v hk => by omega⟩
  | succ n ih =>
    obtain ⟨h1, h2, h3⟩ := ih (fbReadByte fb draws a).2 (a + 1)
    refine ⟨by simp [fbReadRun, h1], ?_, fun k v hk hv => ?_⟩
    · have : draws ≤ (fbReadByte fb draws a).2 := by
        unfold fbReadByte
        split <;> simp
      simp only [fbReadRun]
      omega
    · cases k with
      | zero => simp [fbReadRun, fbReadByte, show fb.read a = some v from hv]
      | succ k =>
        have := h3 k v (by omega) (by rw [← hv]; congr 1; omega)
        simpa [fbReadRun] using this

/-- A read of written bytes draws no free value. -/
theorem fbReadRun_written (fb : Memory) (draws a n : Nat)
    (h : ∀ k, k < n → (fb.read (a + k)).isSome = true) :
    (fbReadRun fb draws a n).2 = draws ∧
      (fbReadRun fb draws a n).1 = (List.range n).map (fun k => (fb.read (a + k)).getD 0x00#8) := by
  induction n generalizing draws a with
  | zero => exact ⟨rfl, rfl⟩
  | succ n ih =>
    obtain ⟨v, hv⟩ := Option.isSome_iff_exists.1 (h 0 (by omega))
    have hb : fbReadByte fb draws a = (v, draws) := by
      simp [fbReadByte, show fb.read a = some v from hv]
    obtain ⟨h1, h2⟩ := ih draws (a + 1) (fun k hk => by
      have := h (k + 1) (by omega)
      rwa [show a + 1 + k = a + (k + 1) by omega])
    refine ⟨by simp [fbReadRun, hb, h1], ?_⟩
    rw [List.range_succ_eq_map]
    simp only [fbReadRun, hb, h2, List.map_cons, List.map_map]
    congr 1
    · rw [show fb.read (a + 0) = some v from hv]
      rfl
    · apply List.map_congr_left
      intro k _
      show _ = (fb.read (a + (k + 1))).getD _
      rw [show a + 1 + k = a + (k + 1) by omega]

end Sys2Proof.Machine
end

