-- ==== Sys2Proof/Laws/Effect.lean ====
section
/-! SUPPORT. Everything a command can do, said once: each command is the transport events, the drops, the
framebuffer writes and the free draws of one effect, and the effect depends on the parameters, on the
framebuffer and on the number of draws alone. -/

namespace Sys2Proof.Machine

/-- What one command does. -/
structure Effect where
  /-- the reset pulse, of INIT alone (R122) -/
  pulse : List Event := []
  /-- the bursts sent after it, each on its channel (R62, R63) -/
  bursts : List (Channel × List Byte) := []
  /-- the cause of its drops -/
  cause : Cause := .unknownOp
  /-- how many drops -/
  drops : Nat := 0
  /-- the runs of framebuffer writes, in order (R66) -/
  runs : List (FbIndex × List Byte) := []
  /-- the number of draws after it -/
  draws : Nat
  /-- whether `INITED` is set -/
  sets : Bool := false

/-- The transport events of an effect. -/
def Effect.events (e : Effect) : List Event := e.pulse ++ e.bursts.flatMap (fun cb => burst cb.1 cb.2)

/-- Runs of writes one after the other. -/
def writeRuns (runs : List (FbIndex × List Byte)) (m : Memory) : Memory :=
  runs.foldl (fun m r => m.writeRun r.1 r.2) m

/-- The state an effect makes. -/
def Effect.apply (e : Effect) (s : State) : State :=
  { dropTimes e.cause e.drops (txs e.events s) with
    fb := writeRuns e.runs s.fb
    draws := e.draws
    inited := s.inited || e.sets }

/-- The effect of items drawn at the cursor. -/
def itemsDirect (c : Cause) (glyph : Byte → Option (List Byte)) (text : List Byte) (draws : Nat) : Effect :=
  { bursts := text.map (fun b => (.data, (glyph b).getD []))
    cause := c
    drops := missing glyph text
    draws := draws }

/-- The effect of items drawn into the framebuffer. -/
def itemsBuffered (c : Cause) (glyph : Byte → Option (List Byte)) (text : List Byte) (bp : FbIndex)
    (draws : Nat) : Effect :=
  { cause := c, drops := missing glyph text, runs := [(bp, itemBytes glyph text)], draws := draws }

/-- The effect of a single drop. -/
def oneDrop (c : Cause) (draws : Nat) : Effect := { cause := c, drops := 1, draws := draws }

/-- The effect of a buffer-backed command with position operands. -/
def effectAt (col page : Byte) (draws : Nat) (run : FbIndex → Effect) : Effect :=
  match bufStart col page with
  | some bp => run bp
  | none => oneDrop .badBufPos draws

/-- The two digits of WHEX. -/
def hexText (value : Byte) : List Byte := [hexDigit (value.toNat / 16), hexDigit (value.toNat % 16)]

/-- The effect of each command; `none` where it stops the machine. -/
def effectOf (p : Params) (fb : Memory) (draws : Nat) : Instr → Option Effect
  | .init => some
      { pulse := pulseEvents p
        bursts := [(.cmd, bringUpBytes p), (.cmd, positionBytes p 0 0), (.data, blanks 504),
          (.cmd, [p.dispNormal]), (.cmd, positionBytes p 0 0)]
        runs := [(0, blanks 504)]
        draws := draws
        sets := true }
  | .setpos col page => some { bursts := [(.cmd, positionBytes p col.toNat page.toNat)], draws := draws }
  | .setcell col row => some (if cellOk col row then
      { bursts := [(.cmd, positionBytes p (cellColumn col) row.toNat)], draws := draws }
      else oneDrop .badCell draws)
  | .setpage page => some { bursts := [(.cmd, [pageSelect p page.toNat])], draws := draws }
  | .wchar code => some (itemsDirect .badChar (glyphChar p) [code] draws)
  | .wstr text => some (itemsDirect .badChar (glyphChar p) text draws)
  | .wicon ordinal =>
    if iconOk p ordinal then some { bursts := [(.data, glyphIcon p ordinal)], draws := draws } else none
  | .whex value => some (itemsDirect .badChar (glyphChar p) (hexText value) draws)
  | .wbits lo hi dir => some { bursts := [(.data, glyphBits p (value16 lo hi) (msbFirst dir))], draws := draws }
  | .clrline line => some (match lineStart line with
      | some _ => { bursts := [(.cmd, positionBytes p 0 line.toNat), (.data, blanks 84),
          (.cmd, positionBytes p 0 line.toNat)], draws := draws }
      | none => oneDrop .badLine draws)
  | .clrall => some { bursts := [(.cmd, positionBytes p 0 0), (.data, blanks 504)], draws := draws }
  | .junk => some { bursts := [(.data, timerSamples draws 504)], draws := draws + 504 }
  | .wbignum code half => some (match p.big with
      | none => oneDrop .featureAbsent draws
      | some t => if half.toNat ≤ 1 then
          itemsDirect .noBigMatch (fun c => glyphBig t c half.toNat) [code] draws
        else oneDrop .badHalf draws)
  | .wbigstr x y text => some (match p.big with
      | none => oneDrop .featureAbsent draws
      | some t =>
        { bursts := (.cmd, positionBytes p x.toNat y.toNat) ::
            text.map (fun c => (.data, (glyphBig t c (topHalf t)).getD [])) ++
            (.cmd, positionBytes p x.toNat (y.toNat + 1)) ::
            text.map (fun c => (.data, (glyphBig t c (bottomHalf t)).getD []))
          cause := .noBigMatch, drops := unmatched t text + unmatched t text, draws := draws })
  | .render a b => some (if rangeOk a b then
      { bursts := [(.cmd, positionBytes p 0 a.toNat),
          (.data, (fbReadRun fb draws (a.toNat * 84) ((b.toNat - a.toNat + 1) * 84)).1)]
        draws := (fbReadRun fb draws (a.toNat * 84) ((b.toNat - a.toNat + 1) * 84)).2 }
      else oneDrop .badRange draws)
  | .wcharB col page code => some (effectAt col page draws (fun bp =>
      itemsBuffered .badChar (glyphChar p) [code] bp draws))
  | .wstrB col page text => some (effectAt col page draws (fun bp =>
      itemsBuffered .badChar (glyphChar p) text bp draws))
  | .wiconB col page ordinal =>
    if iconOk p ordinal || (bufStart col page).isNone then
      some (effectAt col page draws (fun bp => { runs := [(bp, glyphIcon p ordinal)], draws := draws }))
    else none
  | .whexB col page value => some (effectAt col page draws (fun bp =>
      itemsBuffered .badChar (glyphChar p) (hexText value) bp draws))
  | .wbitsB col page lo hi dir => some (effectAt col page draws (fun bp =>
      { runs := [(bp, glyphBits p (value16 lo hi) (msbFirst dir))], draws := draws }))
  | .clrlineB line => some (match lineStart line with
      | some start => { runs := [(start, blanks 84)], draws := draws }
      | none => oneDrop .badLine draws)
  | .clrallB => some { runs := [(0, blanks 504)], draws := draws }
  | .wbignumB col page code half => some (match p.big with
      | none => oneDrop .featureAbsent draws
      | some t => effectAt col page draws (fun bp => if half.toNat ≤ 1 then
          itemsBuffered .noBigMatch (fun c => glyphBig t c half.toNat) [code] bp draws
        else oneDrop .badHalf draws))
  | .wbigstrB x y text => some (match p.big, bigBufStarts x y with
      | none, _ => oneDrop .featureAbsent draws
      | some _, none => oneDrop .badBufPos draws
      | some t, some starts =>
        { cause := .noBigMatch, drops := unmatched t text + unmatched t text
          runs := [(starts.1, bigColumnsOf t (topHalf t) text), (starts.2, bigColumnsOf t (bottomHalf t) text)]
          draws := draws })

/-- The ordinal a stopping command names. -/
def ordinalOf : Instr → Byte
  | .wicon ordinal => ordinal
  | .wiconB _ _ ordinal => ordinal
  | _ => 0x00#8

/-! ### Each meaning is its effect -/

theorem bursts_items (glyph : Byte → Option (List Byte)) (text : List Byte) :
    (text.map (fun b => (Channel.data, (glyph b).getD []))).flatMap (fun cb => burst cb.1 cb.2) =
      itemBursts glyph text := by
  simp [itemBursts, List.flatMap_map]

theorem dropTimes_add (c : Cause) (n m : Nat) (s : State) :
    dropTimes c m (dropTimes c n s) = dropTimes c (n + m) s := by
  induction n generalizing s with
  | zero => simp [dropTimes]
  | succ n ih => rw [dropTimes, ih, show n + 1 + m = (n + m) + 1 by omega, dropTimes]

theorem apply_direct (c : Cause) (glyph : Byte → Option (List Byte)) (text : List Byte) (s : State) :
    (itemsDirect c glyph text s.draws).apply s =
      txs (itemBursts glyph text) (dropTimes c (missing glyph text) s) := by
  rw [← dropTimes_txs]
  simp only [itemsDirect, Effect.apply, Effect.events, bursts_items, writeRuns, List.nil_append,
    List.foldl_nil, Bool.or_false]
  rw [dropTimes_frame]
  simp

theorem apply_buffered (c : Cause) (glyph : Byte → Option (List Byte)) (text : List Byte) (bp : FbIndex)
    (s : State) :
    (itemsBuffered c glyph text bp s.draws).apply s =
      fbWrite bp (itemBytes glyph text) (dropTimes c (missing glyph text) s) := by
  simp only [itemsBuffered, Effect.apply, Effect.events, writeRuns, List.nil_append, List.flatMap_nil,
    List.foldl_nil, List.foldl_cons, Bool.or_false, txs_nil, fbWrite, dropTimes_fb]
  rw [dropTimes_frame]

theorem apply_oneDrop (c : Cause) (s : State) : (oneDrop c s.draws).apply s = drop c s := by
  simp [oneDrop, Effect.apply, Effect.events, writeRuns, dropTimes, drop]

theorem apply_bursts (bursts : List (Channel × List Byte)) (s : State) :
    Effect.apply { bursts := bursts, draws := s.draws } s =
      txs (bursts.flatMap (fun cb => burst cb.1 cb.2)) s := by
  rw [txs_eq]
  simp [Effect.apply, Effect.events, writeRuns, dropTimes, txs_eq]

theorem apply_run (bp : FbIndex) (bytes : List Byte) (s : State) :
    Effect.apply { runs := [(bp, bytes)], draws := s.draws } s = fbWrite bp bytes s := by
  simp [Effect.apply, Effect.events, writeRuns, dropTimes, fbWrite]

theorem apply_at (col page : Byte) (s : State) (run : Drawing → Drawing) (e : FbIndex → Effect)
    (h : ∀ bp, (e bp).apply s = drawBuffered bp run s) :
    (effectAt col page s.draws e).apply s = drawAt col page run s := by
  unfold effectAt drawAt
  cases bufStart col page with
  | some bp => exact h bp
  | none => exact apply_oneDrop _ s

theorem itemBursts_glyphBig (t : BigTables) (half : Nat) (text : List Byte) :
    itemBursts (fun c => glyphBig t c half) text = bigBursts t half text := rfl

theorem itemBytes_glyphBig (t : BigTables) (half : Nat) (text : List Byte) :
    itemBytes (fun c => glyphBig t c half) text = bigColumnsOf t half text := rfl

theorem putChar_eq_items (code : Byte) (d : Drawing) : putChar d code = putString [code] d := rfl

theorem putBig_eq_items (t : BigTables) (half : Nat) (code : Byte) (d : Drawing) :
    putBig t half d code = putBigString t half [code] d := rfl

/-- Everything a command does (R190): its effect on the state, or the fault of an icon outside the table. -/
theorem exec_eq_effect (i : Instr) (s : State) :
    exec i s = match effectOf s.cfg.toParams s.fb s.draws i with
      | some e => .next (e.apply s)
      | none => .fault (.iconOutsideTable (ordinalOf i)) := by
  cases i with
  | init =>
    show execInit s = _
    simp only [execInit, effectOf, sendCmd_eq_txs, sendData_eq_txs, setPosition_eq_txs, fbWrite_txs, txs_cfg,
      fbWrite_cfg]
    generalize blanks 504 = zeros
    simp only [Effect.apply, Effect.events, writeRuns, dropTimes, List.flatMap_cons, List.flatMap_nil,
      List.append_nil, List.foldl_cons, List.foldl_nil, Bool.or_true, ← txs_append, List.append_assoc]
    simp only [txs_eq]
    rfl
  | setpos col page =>
    show Host.Outcome.next _ = _
    simp only [effectOf, apply_bursts, List.flatMap_cons, List.flatMap_nil, List.append_nil]
    rfl
  | setcell col row =>
    show Host.Outcome.next _ = _
    simp only [effectOf]
    split
    · simp only [apply_bursts, List.flatMap_cons, List.flatMap_nil, List.append_nil]
      rfl
    · rw [apply_oneDrop]
  | setpage page =>
    show Host.Outcome.next _ = _
    simp only [effectOf, apply_bursts, List.flatMap_cons, List.flatMap_nil, List.append_nil]
    rfl
  | wchar code =>
    show Host.Outcome.next (drawDirect (putString [code]) s) = _
    simp only [effectOf, apply_direct, drawDirect_putString]
  | wstr text =>
    show Host.Outcome.next _ = _
    simp only [effectOf, apply_direct, drawDirect_putString]
  | wicon ordinal =>
    simp only [effectOf, exec, execWicon]
    split
    · simp only [apply_bursts, List.flatMap_cons, List.flatMap_nil, List.append_nil]
      rfl
    · rfl
  | whex value =>
    show Host.Outcome.next (drawDirect (putString (hexText value)) s) = _
    simp only [effectOf, apply_direct, drawDirect_putString]
  | wbits lo hi dir =>
    show Host.Outcome.next _ = _
    simp only [effectOf, apply_bursts, List.flatMap_cons, List.flatMap_nil, List.append_nil]
    rfl
  | clrline line =>
    show Host.Outcome.next _ = _
    simp only [effectOf]
    cases lineStart line with
    | some _ =>
      simp only [apply_bursts, List.flatMap_cons, List.flatMap_nil, List.append_nil, setPosition_eq_txs,
        sendData_eq_txs, txs_append, txs_cfg]
    | none => rw [apply_oneDrop]
  | clrall =>
    show Host.Outcome.next _ = _
    simp only [effectOf, apply_bursts, List.flatMap_cons, List.flatMap_nil, List.append_nil,
      setPosition_eq_txs, sendData_eq_txs, txs_append]
  | junk =>
    show Host.Outcome.next _ = _
    simp only [effectOf, Effect.apply, Effect.events, writeRuns, dropTimes, List.flatMap_cons, List.flatMap_nil,
      List.append_nil, List.nil_append, List.foldl_nil, Bool.or_false, sendData_eq_txs, txs_eq]
  | wbignum code half =>
    show Host.Outcome.next _ = _
    simp only [effectOf]
    cases s.cfg.big with
    | none => rw [apply_oneDrop]
    | some t =>
      simp only
      split
      · rw [apply_direct]
        show Host.Outcome.next (drawDirect (putBigString t half.toNat [code]) s) = _
        rw [drawDirect_putBigString]
      · rw [apply_oneDrop]
  | wbigstr x y text =>
    show Host.Outcome.next _ = _
    simp only [effectOf]
    cases s.cfg.big with
    | none => rw [apply_oneDrop]
    | some t =>
      simp only [drawDirect_putBigString, setPosition_eq_txs, missing_glyphBig, txs_cfg, dropTimes_cfg,
        dropTimes_txs, dropTimes_add, ← txs_append]
      rw [txs_eq]
      simp only [Effect.apply, Effect.events, writeRuns, List.foldl_nil, List.nil_append, List.flatMap_append,
        List.flatMap_cons, Bool.or_false, bursts_items, dropTimes_txs]
      rw [txs_eq]
      simp
  | render a b =>
    show Host.Outcome.next _ = _
    simp only [effectOf]
    split
    · simp only [Effect.apply, Effect.events, writeRuns, dropTimes, List.flatMap_cons, List.flatMap_nil,
        List.append_nil, List.nil_append, List.foldl_nil, Bool.or_false, sendData_eq_txs,
        setPosition_eq_txs, ← txs_append, pageRangeBytes]
      simp only [txs_eq]
    · rw [apply_oneDrop]
  | wcharB col page code =>
    show Host.Outcome.next (drawAt col page (putString [code]) s) = _
    simp only [effectOf]
    rw [apply_at col page s (putString [code])]
    intro bp
    rw [apply_buffered, drawBuffered_putString]
  | wstrB col page text =>
    show Host.Outcome.next _ = _
    simp only [effectOf]
    rw [apply_at col page s (putString text)]
    intro bp
    rw [apply_buffered, drawBuffered_putString]
  | wiconB col page ordinal =>
    simp only [effectOf, exec, execWiconB]
    split
    · simp only
      rw [apply_at col page s (emit (glyphIcon s.cfg.toParams ordinal))]
      intro bp
      rw [apply_run, drawBuffered_emit]
    · rfl
  | whexB col page value =>
    show Host.Outcome.next (drawAt col page (putString (hexText value)) s) = _
    simp only [effectOf]
    rw [apply_at col page s (putString (hexText value))]
    intro bp
    rw [apply_buffered, drawBuffered_putString]
  | wbitsB col page lo hi dir =>
    show Host.Outcome.next _ = _
    simp only [effectOf]
    rw [apply_at col page s (emit (glyphBits s.cfg.toParams (value16 lo hi) (msbFirst dir)))]
    intro bp
    rw [apply_run, drawBuffered_emit]
  | clrlineB line =>
    show Host.Outcome.next _ = _
    simp only [effectOf]
    cases lineStart line with
    | some _ => rw [apply_run]
    | none => rw [apply_oneDrop]
  | clrallB =>
    show Host.Outcome.next _ = _
    simp only [effectOf]
    rw [apply_run]
  | wbignumB col page code half =>
    show Host.Outcome.next _ = _
    simp only [effectOf]
    cases s.cfg.big with
    | none => rw [apply_oneDrop]
    | some t =>
      simp only [effectAt]
      cases bufStart col page with
      | none => rw [apply_oneDrop]
      | some bp =>
        simp only
        split
        · rw [apply_buffered]
          show Host.Outcome.next (drawBuffered bp (putBigString t half.toNat [code]) s) = _
          rw [drawBuffered_putBigString]
        · rw [apply_oneDrop]
  | wbigstrB x y text =>
    show Host.Outcome.next _ = _
    simp only [effectOf]
    cases s.cfg.big with
    | none => rw [apply_oneDrop]
    | some t =>
      cases bigBufStarts x y with
      | none => rw [apply_oneDrop]
      | some starts =>
        simp only [drawBuffered_putBigString, missing_glyphBig, dropTimes_fbWrite, dropTimes_add,
          itemBytes_glyphBig]
        simp only [Effect.apply, Effect.events, writeRuns, List.nil_append, List.flatMap_nil, List.foldl_nil,
          List.foldl_cons, Bool.or_false, txs_nil, fbWrite, dropTimes_fb]
        rw [dropTimes_frame]

/-! ### What the effects have in common -/

/-- The classes of effects (R32, R93, R122, R124). -/
theorem effectOf_frame {p : Params} {fb : Memory} {draws : Nat} {i : Instr} {e : Effect}
    (h : effectOf p fb draws i = some e) :
    e.pulse = (if i = .init then pulseEvents p else []) ∧ e.sets = decide (i = .init) ∧
    (isBuffered i = true → e.bursts = []) ∧ (writesBuffer i = false → e.runs = []) ∧
    draws ≤ e.draws := by
  cases i with
  | init =>
    simp only [effectOf, Option.some.injEq] at h
    subst h
    exact ⟨by simp, by simp, by simp [isBuffered], by simp [writesBuffer], Nat.le_refl _⟩
  | junk =>
    simp only [effectOf, Option.some.injEq] at h
    subst h
    exact ⟨by simp, by simp, by simp [isBuffered], fun _ => rfl, Nat.le_add_right _ _⟩
  | render a b =>
    simp only [effectOf, Option.some.injEq] at h
    split at h <;> subst h
    · exact ⟨by simp, by simp, by simp [isBuffered], fun _ => rfl, (fbReadRun_spec _ _ _ _).2.1⟩
    · simp [isBuffered, oneDrop]
  | _ =>
    simp only [effectOf, effectAt] at h
    repeat' split at h
    all_goals
      cases h
      try simp [isBuffered, writesBuffer, itemsDirect, itemsBuffered, oneDrop]

/-- Only RENDER reads the framebuffer (R32). -/
theorem effectOf_fb (p : Params) (fb fb' : Memory) (draws : Nat) (i : Instr) (h : ∀ a b, i ≠ .render a b) :
    effectOf p fb draws i = effectOf p fb' draws i := by
  cases i with
  | render a b => exact absurd rfl (h a b)
  | _ => rfl

/-- No command reads HAS_DIAG but the drop itself (R196). -/
theorem effectOf_diag (p : Params) (d : Bool) (fb : Memory) (draws : Nat) (i : Instr) :
    effectOf { p with hasDiag := d } fb draws i = effectOf p fb draws i := by
  cases i <;> rfl

@[simp] theorem apply_cfg (e : Effect) (s : State) : (e.apply s).cfg = s.cfg := by simp [Effect.apply]
@[simp] theorem apply_fb (e : Effect) (s : State) : (e.apply s).fb = writeRuns e.runs s.fb := rfl
@[simp] theorem apply_inited (e : Effect) (s : State) : (e.apply s).inited = (s.inited || e.sets) := rfl
@[simp] theorem apply_busy (e : Effect) (s : State) : (e.apply s).busy = s.busy := by simp [Effect.apply]
@[simp] theorem apply_held (e : Effect) (s : State) : (e.apply s).held = s.held := by simp [Effect.apply]
@[simp] theorem apply_hostIn (e : Effect) (s : State) : (e.apply s).hostIn = s.hostIn := by
  simp [Effect.apply]
@[simp] theorem apply_dc (e : Effect) (s : State) : (e.apply s).dc = e.events.foldl channelAfter s.dc := by
  simp [Effect.apply]
@[simp] theorem apply_ce (e : Effect) (s : State) : (e.apply s).ce = e.events.foldl chipEnableAfter s.ce := by
  simp [Effect.apply]
@[simp] theorem apply_rst (e : Effect) (s : State) : (e.apply s).rst = e.events.foldl resetLineAfter s.rst := by
  simp [Effect.apply]
@[simp] theorem apply_trace (e : Effect) (s : State) : (e.apply s).trace = s.trace ++ e.events := by
  simp [Effect.apply]
@[simp] theorem apply_panel (e : Effect) (s : State) :
    (e.apply s).panel = panelReplay s.cfg.toParams s.dc s.panel e.events := by
  simp [Effect.apply]
@[simp] theorem apply_draws (e : Effect) (s : State) : (e.apply s).draws = e.draws := rfl

/-- The drops of an effect (R192). -/
theorem apply_drops (e : Effect) (s : State) : Drops s (e.apply s) e.cause e.drops := by
  have h := dropTimes_drops e.cause e.drops (txs e.events s)
  exact ⟨fun hd => by simpa [Effect.apply] using h.1 (by simpa using hd),
    fun hd => by simpa [Effect.apply, SameDiag] using h.2 (by simpa using hd)⟩

/-- A command that answers a next state: its effect, applied. -/
theorem exec_next {i : Instr} {s t : State} (h : exec i s = .next t) :
    ∃ e, effectOf s.cfg.toParams s.fb s.draws i = some e ∧ t = e.apply s := by
  rw [exec_eq_effect] at h
  cases he : effectOf s.cfg.toParams s.fb s.draws i with
  | none => simp [he] at h
  | some e =>
    simp only [he, Host.Outcome.next.injEq] at h
    exact ⟨e, rfl, h.symm⟩

/-- But for INIT, no burst carries the byte that selects the extended instruction set: the command bytes
are page and column selects (R71, R130). -/
theorem effectOf_commandBytes {cfg : Config} {fb : Memory} {draws : Nat} {i : Instr} {e : Effect}
    (hi : i ≠ .init) (h : effectOf cfg.toParams fb draws i = some e) :
    ∀ cb ∈ e.bursts, cb.1 = .cmd → ∀ c ∈ cb.2, c ≠ cfg.funcExt := by
  have hp : ∀ n, pageSelect cfg.toParams n ≠ cfg.funcExt := fun n => (pageSelect_ne_func cfg n).1
  have hc : ∀ n, colSelect cfg.toParams n ≠ cfg.funcExt := fun n => (colSelect_ne_func cfg n).1
  cases i with
  | init => exact absurd rfl hi
  | wbigstr x y text =>
    simp only [effectOf] at h
    split at h <;> cases h
    · simp [oneDrop]
    · intro cb hcb hch
      simp only [List.mem_append, List.mem_cons, List.mem_map] at hcb
      rcases hcb with (rfl | ⟨_, _, rfl⟩) | rfl | ⟨_, _, rfl⟩
      · simp [positionBytes, hp, hc]
      · cases hch
      · simp [positionBytes, hp, hc]
      · cases hch
  | _ =>
    simp only [effectOf, effectAt] at h
    repeat' split at h
    all_goals
      cases h
      try simp [itemsDirect, itemsBuffered, oneDrop, positionBytes, hp, hc]

/-- Runs of writes keep the canonical form. -/
theorem writeRuns_wf (runs : List (FbIndex × List Byte)) (m : Memory) (h : m.wf) : (writeRuns runs m).wf := by
  induction runs generalizing m with
  | nil => exact h
  | cons r runs ih => exact ih _ (Memory.writeRun_wf h _ _)

/-- A written byte stays written. -/
theorem writeRuns_isSome (runs : List (FbIndex × List Byte)) (m : Memory) (a : Nat)
    (h : (m.read a).isSome = true) : ((writeRuns runs m).read a).isSome = true := by
  induction runs generalizing m with
  | nil => exact h
  | cons r runs ih => exact ih _ (Memory.read_writeRun_isSome _ _ _ _ h)

/-- The same runs on two memories: a byte is written alike in both or left in both (R69). -/
theorem writeRuns_either (runs : List (FbIndex × List Byte)) (m n : Memory) (a : Nat) :
    (writeRuns runs m).read a = (writeRuns runs n).read a ∨
    ((writeRuns runs m).read a = m.read a ∧ (writeRuns runs n).read a = n.read a) := by
  have congr : ∀ (runs : List (FbIndex × List Byte)) (m n : Memory), m.read a = n.read a →
      (writeRuns runs m).read a = (writeRuns runs n).read a := by
    intro runs
    induction runs with
    | nil => exact fun _ _ h => h
    | cons r runs ih => exact fun m n h => ih _ _ (Memory.read_writeRun_congr r.1 r.2 h)
  induction runs generalizing m n with
  | nil => exact .inr ⟨rfl, rfl⟩
  | cons r runs ih =>
    rcases Memory.read_writeRun_either m n r.1 r.2 a with h | ⟨hm, hn⟩
    · exact .inl (congr runs _ _ h)
    · rcases ih (m.writeRun r.1 r.2) (n.writeRun r.1 r.2) with h | ⟨hm', hn'⟩
      · exact .inl h
      · exact .inr ⟨hm'.trans hm, hn'.trans hn⟩

/-- Bursts carry no event of the reset line and no delay (R122). -/
theorem bursts_noPulse (bursts : List (Channel × List Byte)) :
    Event.rstAssert ∉ bursts.flatMap (fun cb => burst cb.1 cb.2) ∧
    Event.rstRelease ∉ bursts.flatMap (fun cb => burst cb.1 cb.2) ∧
    ∀ n, Event.delay n ∉ bursts.flatMap (fun cb => burst cb.1 cb.2) := by
  have one : ∀ (ch : Channel) (bytes : List Byte), Event.rstAssert ∉ burst ch bytes ∧
      Event.rstRelease ∉ burst ch bytes ∧ ∀ n, Event.delay n ∉ burst ch bytes := by
    intro ch bytes
    cases bytes with
    | nil => simp
    | cons b bytes => cases ch <;> simp [burst, selectEvent]
  simp only [List.mem_flatMap, not_exists, not_and]
  exact ⟨fun x _ => (one _ _).1, fun x _ => (one _ _).2.1, fun n x _ => (one _ _).2.2 n⟩

/-- Every command leaves the chip enable and the reset line released (R35). -/
theorem effectOf_lines {p : Params} {fb : Memory} {draws : Nat} {i : Instr} {e : Effect}
    (h : effectOf p fb draws i = some e) :
    e.events.foldl chipEnableAfter .released = .released ∧
    e.events.foldl resetLineAfter .released = .released := by
  have all : ∀ bursts : List (Channel × List Byte),
      (bursts.flatMap (fun cb => burst cb.1 cb.2)).foldl chipEnableAfter .released = .released ∧
      (bursts.flatMap (fun cb => burst cb.1 cb.2)).foldl resetLineAfter .released = .released := by
    intro bursts
    induction bursts with
    | nil => simp
    | cons b bursts ih =>
      simpa only [List.flatMap_cons, List.foldl_append, chipEnableAfter_burst, resetLineAfter_burst] using ih
  have pulse : e.pulse.foldl chipEnableAfter .released = .released ∧
      e.pulse.foldl resetLineAfter .released = .released := by
    rw [(effectOf_frame h).1]
    split
    · unfold pulseEvents
      split <;> simp [chipEnableAfter, resetLineAfter]
    · simp
  simp only [Effect.events, List.foldl_append, pulse.1, pulse.2]
  exact all _

theorem causeCode_ne_zero (c : Cause) : causeCode c ≠ 0 := by
  cases c <;> decide

theorem causeCode_le (c : Cause) : (causeCode c).toNat ≤ 9 := by
  cases c <;> decide

/-- `n` drops and a framebuffer or an `INITED` of its own do not meet. -/
theorem dropTimes_update (c : Cause) (n : Nat) (s : State) (m : Memory) (b : Bool) :
    dropTimes c n { s with fb := m, inited := b } = { dropTimes c n s with fb := m, inited := b } := by
  induction n generalizing s with
  | zero => rfl
  | succ n ih => exact ih (drop c s)

/-- A step that answers a next state: what it did (R41, R90, R98, R101, R234). -/
theorem step_cases {s t : State} (h : step s = .next t) :
    (s.busy = true ∧ t = s) ∨
    (s.busy = false ∧ ∃ i rest e, fetch s = .instr i rest ∧
      effectOf s.cfg.toParams s.fb s.draws i = some e ∧
      t = completeCommand (e.apply (acceptCommand rest s))) ∨
    (s.busy = false ∧ ∃ op rest, fetch s = .reserved op rest ∧ t = runReserved rest s) ∨
    (s.busy = false ∧ fetch s = .incomplete ∧ t = holdPartial s) := by
  unfold step at h
  split at h
  · next hb =>
    cases h
    exact .inl ⟨hb, rfl⟩
  · next hb =>
    have hb : s.busy = false := by simpa using hb
    split at h
    · next i rest hf =>
      refine .inr (.inl ⟨hb, i, rest, ?_⟩)
      rw [exec_eq_effect] at h
      simp only [acceptCommand_cfg, acceptCommand_fb, acceptCommand_draws] at h
      cases he : effectOf s.cfg.toParams s.fb s.draws i with
      | none => simp [he, completeOutcome] at h
      | some e =>
        simp only [he, completeOutcome, Host.Outcome.next.injEq] at h
        exact ⟨e, hf, rfl, h.symm⟩
    · next op rest hf =>
      cases h
      exact .inr (.inr (.inl ⟨hb, op, rest, hf, rfl⟩))
    · next hf =>
      cases h
      exact .inr (.inr (.inr ⟨hb, hf, rfl⟩))

end Sys2Proof.Machine
end

