-- ==== Sys2Proof/Laws/PerInstr.lean ====
section
/-! SUPPORT. Families of facts about every command as syntax, one lemma for each constructor. -/

namespace Sys2Proof.Laws.EncodedLength

/-- The encoding of a command has the length its row of spec/30_encoding.md R92 gives. -/
def Statement (i : Instr) : Prop := (encode i).length = lengthOf i

theorem init : Statement .init := rfl
theorem setpos (col page : Byte) : Statement (.setpos col page) := rfl
theorem setcell (col row : Byte) : Statement (.setcell col row) := rfl
theorem setpage (page : Byte) : Statement (.setpage page) := rfl
theorem wchar (code : Byte) : Statement (.wchar code) := rfl
theorem wstr (text : List Byte) : Statement (.wstr text) := by
  simp [Statement, encode, operandBytes, lengthOf]; omega
theorem wicon (ordinal : Byte) : Statement (.wicon ordinal) := rfl
theorem whex (value : Byte) : Statement (.whex value) := rfl
theorem wbits (lo hi dir : Byte) : Statement (.wbits lo hi dir) := rfl
theorem clrline (line : Byte) : Statement (.clrline line) := rfl
theorem clrall : Statement .clrall := rfl
theorem junk : Statement .junk := rfl
theorem wbignum (code half : Byte) : Statement (.wbignum code half) := rfl
theorem wbigstr (x y : Byte) (text : List Byte) : Statement (.wbigstr x y text) := by
  simp [Statement, encode, operandBytes, lengthOf]; omega
theorem render (fromPage toPage : Byte) : Statement (.render fromPage toPage) := rfl
theorem wcharB (col page code : Byte) : Statement (.wcharB col page code) := rfl
theorem wstrB (col page : Byte) (text : List Byte) : Statement (.wstrB col page text) := by
  simp [Statement, encode, operandBytes, lengthOf]; omega
theorem wiconB (col page ordinal : Byte) : Statement (.wiconB col page ordinal) := rfl
theorem whexB (col page value : Byte) : Statement (.whexB col page value) := rfl
theorem wbitsB (col page lo hi dir : Byte) : Statement (.wbitsB col page lo hi dir) := rfl
theorem clrlineB (line : Byte) : Statement (.clrlineB line) := rfl
theorem clrallB : Statement .clrallB := rfl
theorem wbignumB (col page code half : Byte) : Statement (.wbignumB col page code half) := rfl
theorem wbigstrB (x y : Byte) (text : List Byte) : Statement (.wbigstrB x y text) := by
  simp [Statement, encode, operandBytes, lengthOf]; omega

end Sys2Proof.Laws.EncodedLength
end

