-- ==== Sys2Proof/Tests/Slice0.lean ====
section
/-! SUPPORT. Tests. Expected values come from the spec's encodings (spec/30_encoding.md R92) and from its
vectors (spec/95_test_vectors.md, named at each test); and, for each obligation that has hypotheses, a
state and operands that meet them. -/

namespace Sys2Proof.Tests

open Sys2Proof.Machine

/-! ### Syntax and encoding -/

/-- R96: a payload with a terminator in it cannot be spelled; one check for each command with a text. -/
theorem test_wellFormed_refuses :
    (Instr.wstr [0x41#8, 0x00#8, 0x42#8]).wellFormed = false ∧
    (Instr.wbigstr 10 2 [0x00#8]).wellFormed = false ∧
    (Instr.wstrB 0 1 [0x48#8, 0x00#8]).wellFormed = false ∧
    (Instr.wbigstrB 0 4 [0x00#8, 0x30#8]).wellFormed = false := by decide

theorem test_wellFormed_accepts :
    (Instr.wstr []).wellFormed = true ∧ (Instr.wstr [0x01#8, 0xFF#8]).wellFormed = true ∧
    (Instr.wbits 0 0 0).wellFormed = true := by decide

/-- R91, R92: opcode bytes as sink bit and operation number, bit by bit. -/
theorem test_decode_addressing :
    decode [0b00000001#8] = .instr .init [] ∧
    decode [0b00000010#8, 0x8C#8, 0x0A#8] = .instr (.setpos 0x8C 0x0A) [] ∧
    decode [0b00000011#8, 0x03#8, 0x04#8] = .instr (.setcell 3 4) [] ∧
    decode [0b00000100#8, 0x0D#8] = .instr (.setpage 13) [] := by decide

theorem test_decode_direct :
    decode [0b00010000#8, 0x41#8] = .instr (.wchar 0x41) [] ∧
    decode [0b00010001#8, 0x48#8, 0x69#8, 0x00#8] = .instr (.wstr [0x48, 0x69]) [] ∧
    decode [0b00010010#8, 0x03#8] = .instr (.wicon 3) [] ∧
    decode [0b00010011#8, 0xA5#8] = .instr (.whex 0xA5) [] ∧
    decode [0b00010100#8, 0x34#8, 0x12#8, 0x01#8] = .instr (.wbits 0x34 0x12 1) [] ∧
    decode [0b00010101#8, 0x05#8] = .instr (.clrline 5) [] ∧
    decode [0b00010110#8] = .instr .clrall [] ∧
    decode [0b00010111#8] = .instr .junk [] := by decide

theorem test_decode_big_and_flush :
    decode [0b00011000#8, 0x30#8, 0x01#8] = .instr (.wbignum 0x30 1) [] ∧
    decode [0b00011001#8, 0x0A#8, 0x02#8, 0x31#8, 0x30#8, 0x00#8] = .instr (.wbigstr 10 2 [0x31, 0x30]) [] ∧
    decode [0b00011010#8, 0x01#8, 0x02#8] = .instr (.render 1 2) [] ∧
    decode [0b10011000#8, 0x0A#8, 0x02#8, 0x30#8, 0x01#8] = .instr (.wbignumB 10 2 0x30 1) [] ∧
    decode [0b10011001#8, 0x00#8, 0x04#8, 0x30#8, 0x00#8] = .instr (.wbigstrB 0 4 [0x30]) [] := by decide

theorem test_decode_buffered :
    decode [0b10010000#8, 0x52#8, 0x05#8, 0x41#8] = .instr (.wcharB 82 5 0x41) [] ∧
    decode [0b10010001#8, 0x00#8, 0x01#8, 0x48#8, 0x69#8, 0x00#8] = .instr (.wstrB 0 1 [0x48, 0x69]) [] ∧
    decode [0b10010010#8, 0x4E#8, 0x00#8, 0x00#8] = .instr (.wiconB 78 0 0) [] ∧
    decode [0b10010011#8, 0x06#8, 0x03#8, 0x0F#8] = .instr (.whexB 6 3 0x0F) [] ∧
    decode [0b10010100#8, 0x0A#8, 0x05#8, 0x34#8, 0x12#8, 0x00#8] = .instr (.wbitsB 10 5 0x34 0x12 0) [] ∧
    decode [0b10010101#8, 0x05#8] = .instr (.clrlineB 5) [] ∧
    decode [0b10010110#8] = .instr .clrallB [] := by decide

/-- V-D1, V-D3, V-D4, V-D5. -/
theorem test_decode_edges :
    decode [0x00#8] = .reserved 0x00 [] ∧ decode [0x97#8, 0x01#8] = .reserved 0x97 [0x01] ∧
    decode [0x9A#8] = .reserved 0x9A [] ∧ decode [0x1B#8] = .reserved 0x1B [] ∧
    decode [0x11#8, 0x41#8, 0x01#8, 0x42#8, 0x00#8] = .instr (.wstr [0x41, 0x01, 0x42]) [] ∧
    decode [0x10#8] = .incomplete ∧ decode [0x11#8, 0x41#8, 0x42#8] = .incomplete := by decide

/-- The table's numbering: the opcode is byte 0, and operands beyond `nbits` are zero. -/
theorem test_table_words :
    decodeTableWord 8 0x94 = some (.wbitsB 0 0 0 0 0) ∧ decodeTableWord 24 0x020C02 = some (.setpos 12 2) ∧
    decodeTableWord 8 0x99 = some (.wbigstrB 0 0 []) ∧ decodeTableWord 8 0x7E = none := by decide

/-- R103: `WBITS 0x1234, msb` is `14 34 12 01`. -/
theorem test_assembler : encode (asmWbits 0x1234 true) = [0x14#8, 0x34#8, 0x12#8, 0x01#8] := by decide

/-! ### A machine to test on -/

/-- `n` bytes counting up from `k`, so that a byte tells its index. -/
def ramp : Nat → Nat → List Byte
  | 0, _ => []
  | n + 1, k => BitVec.ofNat 8 k :: ramp n (k + 1)

theorem length_ramp (n k : Nat) : (ramp n k).length = n := by
  induction n generalizing k with
  | zero => rfl
  | succ n ih => simp [ramp, ih]

/-- The tables of spec/95_test_vectors.md section 2.6, `t` as 0xA0.., `b` as 0xB0.., `u` as 0xC0.., `v` as
0xD0... -/
def bigTables : BigTables where
  chars := [0x30#8, 0x31#8]
  lens := [3#8, 2#8]
  data := [0xA0#8, 0xB0#8, 0xA1#8, 0xB1#8, 0xA2#8, 0xB2#8, 0xC0#8, 0xD0#8, 0xC1#8, 0xD1#8]
  topOffset := 0

/-- `FONT[i]` is `i` modulo 256, `ICON[i]` is `i + 0x40`, four icons, the command bytes of U14. -/
def testParams : Params :=
  { Params.sample with
    font := ramp 490 0
    iconsAfterTrack := 3
    icon := ramp 32 0x40
    tinyOne := [0x01#8, 0x02#8, 0x03#8, 0x04#8]
    tinyZero := [0x11#8, 0x12#8, 0x13#8, 0x14#8]
    big := some bigTables
    resetPulse := some ⟨5, 7⟩ }

theorem testParams_valid : testParams.valid = true := by
  have tables : testParams.tablesFit = true := by
    simp only [Params.tablesFit, testParams, Params.nIcons, length_ramp]
    decide
  have commands : testParams.commandsFit = true := by decide
  simp [Params.valid, tables, commands]

def testConfig : Config := { toParams := testParams, ok := testParams_valid }

/-- The same without the optional features. -/
def plainConfig : Config := { toParams := Params.sample, ok := Params.sample_valid }

/-- A machine with the panel in the basic instruction set, its cursor at `(x, y)`, nothing sent yet. -/
def machineAt (x : Fin 84) (y : Fin 6) : State :=
  { State.powerOn testConfig with dc := .cmd, panel := ⟨some x, some y, [], some false⟩ }

def machine : State := machineAt 0 0

def plainMachine : State := { State.powerOn plainConfig with dc := .cmd }

/-- The wire stream of one command. -/
def wireOf (i : Instr) (s : State) : Option (List (Channel × Byte)) :=
  match exec i s with
  | .next t => some (wireStream s.dc (t.trace.drop s.trace.length))
  | _ => none

/-- The framebuffer after one command. -/
def fbOf (i : Instr) (s : State) : Option Memory :=
  match exec i s with
  | .next t => some t.fb
  | _ => none

/-- The panel's cursor after one command. -/
def cursorOf (i : Instr) (s : State) : Option (Option (Fin 84) × Option (Fin 6)) :=
  match exec i s with
  | .next t => some (t.panel.px, t.panel.py)
  | _ => none

/-- The drop registers and the number of events after one command. -/
def dropOf (i : Instr) (s : State) : Option (BitVec 16 × BitVec 4 × Nat) :=
  match exec i s with
  | .next t => some (t.dropCnt, t.lastDrop, t.trace.length)
  | _ => none

/-- Bytes on the data channel. -/
def onData (bytes : List Byte) : List (Channel × Byte) := bytes.map (fun b => (.data, b))

/-! ### Addressing (section 2.3) -/

/-- V-A2: both operands masked. -/
theorem test_setpos_masks :
    wireOf (.setpos 0x8C 0x0A) machine = some [(.cmd, 0x42#8), (.cmd, 0x8C#8)] ∧
    cursorOf (.setpos 0x8C 0x0A) machine = some (some 12, some 2) := by decide

/-- V-A2c: a page out of range. -/
theorem test_setpos_unknown : cursorOf (.setpos 0 6) machine = some (some 0, none) := by decide

/-- V-A4, V-A5. -/
theorem test_setcell :
    wireOf (.setcell 13 5) machine = some [(.cmd, 0x45#8), (.cmd, 0xCE#8)] ∧
    dropOf (.setcell 14 0) machine = some (1, 1, 0) := by decide

/-- V-A7. -/
theorem test_setpage :
    wireOf (.setpage 13) (machineAt 30 1) = some [(.cmd, 0x45#8)] ∧
    cursorOf (.setpage 5) (machineAt 30 1) = some (some 30, some 5) := by decide

/-! ### The glyph rasterizer (section 2.4) -/

/-- V-R1 and V-R3: the last glyph's five bytes, and the cursor after one glyph. -/
theorem test_wchar :
    wireOf (.wchar 0x81) machine = some (onData [0xE5#8, 0xE6#8, 0xE7#8, 0xE8#8, 0xE9#8, 0x00#8]) ∧
    cursorOf (.wchar 0x41) machine = some (some 6, some 0) := by decide +kernel

/-- V-R2. -/
theorem test_wchar_drops :
    dropOf (.wchar 0x1F) machine = some (1, 2, 0) ∧ dropOf (.wchar 0x82) machine = some (1, 2, 0) := by decide

/-- V-R5: `"A\nB"`. -/
theorem test_wstr :
    wireOf (.wstr [0x41, 0x0A, 0x42]) machine = some (onData [0xA5#8, 0xA6#8, 0xA7#8, 0xA8#8, 0xA9#8, 0x00#8,
      0xAA#8, 0xAB#8, 0xAC#8, 0xAD#8, 0xAE#8, 0x00#8]) := by decide +kernel

/-- V-R4: no event at all. -/
theorem test_wstr_empty : dropOf (.wstr []) machine = some (0, 0, 0) := by decide

/-- V-R6. -/
theorem test_wicon :
    wireOf (.wicon 3) machine = some (onData [0x58#8, 0x59#8, 0x5A#8, 0x5B#8, 0x5C#8, 0x5D#8, 0x5E#8, 0x5F#8,
      0x00#8]) := by decide

/-- V-R7, U1. -/
theorem test_wicon_outside :
    (match exec (.wicon 4) machine with | .fault (.iconOutsideTable 4) => true | _ => false) = true := by decide

/-- V-R8: `A`, then `5`. -/
theorem test_whex :
    wireOf (.whex 0xA5) machine = some (onData [0xA5#8, 0xA6#8, 0xA7#8, 0xA8#8, 0xA9#8, 0x00#8,
      0x69#8, 0x6A#8, 0x6B#8, 0x6C#8, 0x6D#8, 0x00#8]) := by decide +kernel

/-- V-R14: the groups of 0x1234 from bit 15 down, `O` at bits 12, 9, 5, 4 and 2. -/
theorem test_wbits_msb :
    (wireOf (.wbits 0x34 0x12 1) machine).map (fun w => (List.range 16).map (fun j => (w.getD (5 * j) (.cmd, 0)).2))
      = some [0x11#8, 0x11#8, 0x11#8, 0x01#8, 0x11#8, 0x11#8, 0x01#8, 0x11#8, 0x11#8, 0x11#8, 0x01#8, 0x01#8,
        0x11#8, 0x01#8, 0x11#8, 0x11#8] := by decide

/-- V-R12: LSB-first, value 1. -/
theorem test_wbits_lsb :
    (wireOf (.wbits 0x01 0x00 0) machine).map (fun w => w.take 10) = some (onData [0x01#8, 0x02#8, 0x03#8, 0x04#8,
      0x00#8, 0x11#8, 0x12#8, 0x13#8, 0x14#8, 0x00#8]) := by decide

/-- V-R16: the wrap from index 503 to 0. -/
theorem test_wcharB_wraps :
    fbOf (.wcharB 82 5 0x41) machine = some [(0, 0xA7#8), (1, 0xA8#8), (2, 0xA9#8), (3, 0x00#8), (502, 0xA5#8),
      (503, 0xA6#8)] := by decide +kernel

/-- V-R18: position before code. -/
theorem test_wcharB_order : dropOf (.wcharB 84 0 0x10) machine = some (1, 6, 0) := by decide

/-- V-R21: the dropped byte does not advance the pointer. -/
theorem test_wstrB :
    fbOf (.wstrB 0 1 [0x48, 0x05, 0x69]) machine = some [(84, 0xC8#8), (85, 0xC9#8), (86, 0xCA#8), (87, 0xCB#8),
      (88, 0xCC#8), (89, 0x00#8), (90, 0x6D#8), (91, 0x6E#8), (92, 0x6F#8), (93, 0x70#8), (94, 0x71#8),
      (95, 0x00#8)] := by decide +kernel

/-- Program P2: the icon at column 78 runs over the row end. -/
theorem test_wiconB :
    fbOf (.wiconB 78 0 0) machine = some [(78, 0x40#8), (79, 0x41#8), (80, 0x42#8), (81, 0x43#8), (82, 0x44#8),
      (83, 0x45#8), (84, 0x46#8), (85, 0x47#8), (86, 0x00#8)] := by decide

/-- V-R23. -/
theorem test_whexB :
    fbOf (.whexB 6 3 0x0F) machine = some [(258, 0x50#8), (259, 0x51#8), (260, 0x52#8), (261, 0x53#8),
      (262, 0x54#8), (263, 0x00#8), (264, 0xBE#8), (265, 0xBF#8), (266, 0xC0#8), (267, 0xC1#8), (268, 0xC2#8),
      (269, 0x00#8)] := by decide

/-- V-R24: the first and the last group at page 5, and the byte after them. -/
theorem test_wbitsB :
    (fbOf (.wbitsB 0 5 0xFF 0xFF 0) machine).map (fun m => [m.read 419, m.read 420, m.read 423, m.read 424,
      m.read 495, m.read 499, m.read 500]) =
      some [none, some 0x01#8, some 0x04#8, some 0x00#8, some 0x01#8, some 0x00#8, none] := by decide

/-! ### Clears and the diagnostic fill (section 2.5) -/

/-- V-C3. -/
theorem test_clrline_drops : dropOf (.clrline 6) machine = some (1, 3, 0) := by decide

/-- V-C5. -/
theorem test_clrlineB_drops : dropOf (.clrlineB 0xFF) machine = some (1, 3, 0) := by decide

/-- V-C8: the framebuffer is not touched and 504 draws are used up. -/
theorem test_junk :
    (match exec .junk machine with | .next t => (t.fb, t.draws) | _ => ([], 0)) = ([], 504) := by decide

/-- V-C6, V-C7: neither clears what the other does. -/
theorem test_clears_apart :
    fbOf .clrall { machine with fb := [(9, 0x77#8)] } = some [(9, 0x77#8)] ∧
    (match exec .clrallB machine with | .next t => t.trace | _ => [.selCmd]) = [] := by decide

/-! ### Big numerals (section 2.6) -/

/-- V-B1, V-B2. -/
theorem test_wbignum :
    wireOf (.wbignum 0x30 1) machine = some (onData [0xB0#8, 0xB1#8, 0xB2#8, 0x00#8]) ∧
    wireOf (.wbignum 0x31 0) machine = some (onData [0xC0#8, 0xC1#8, 0x00#8]) := by decide

/-- V-B3, V-B5. -/
theorem test_wbignum_drops :
    dropOf (.wbignum 0x37 0) machine = some (1, 5, 0) ∧ dropOf (.wbignum 0x37 2) machine = some (1, 7, 0) := by
  decide

/-- Program P4: `"1x0"` at (10, 2). -/
theorem test_wbigstr :
    wireOf (.wbigstr 10 2 [0x31, 0x78, 0x30]) machine = some ([(.cmd, 0x42#8), (.cmd, 0x8A#8)] ++
      onData [0xC0#8, 0xC1#8, 0x00#8, 0xA0#8, 0xA1#8, 0xA2#8, 0x00#8] ++ [(.cmd, 0x43#8), (.cmd, 0x8A#8)] ++
      onData [0xD0#8, 0xD1#8, 0x00#8, 0xB0#8, 0xB1#8, 0xB2#8, 0x00#8]) ∧
    cursorOf (.wbigstr 10 2 [0x31, 0x78, 0x30]) machine = some (some 17, some 3) := by decide

/-- V-B10: `y + 1 = 8` masked to 0. -/
theorem test_wbigstr_masks :
    wireOf (.wbigstr 0 7 []) machine = some [(.cmd, 0x47#8), (.cmd, 0x80#8), (.cmd, 0x40#8), (.cmd, 0x80#8)] ∧
    cursorOf (.wbigstr 0 7 []) machine = some (some 0, some 0) := by decide

/-- V-B11. -/
theorem test_wbignumB :
    fbOf (.wbignumB 10 2 0x30 1) machine = some [(178, 0xB0#8), (179, 0xB1#8), (180, 0xB2#8), (181, 0x00#8)] := by
  decide

/-- V-B12, V-B13. -/
theorem test_wbigstrB :
    fbOf (.wbigstrB 0 4 [0x30]) machine = some [(336, 0xA0#8), (337, 0xA1#8), (338, 0xA2#8), (339, 0x00#8),
      (420, 0xB0#8), (421, 0xB1#8), (422, 0xB2#8), (423, 0x00#8)] ∧
    dropOf (.wbigstrB 0 5 [0x30]) machine = some (1, 6, 0) := by decide

/-- V-B15: the feature absent. -/
theorem test_big_absent :
    [Instr.wbignum 0x30 0, .wbigstr 10 2 [0x31, 0x30], .wbignumB 10 2 0x30 1, .wbigstrB 0 4 [0x30]].map
      (fun i => dropOf i plainMachine) =
      [some (1, 9, 0), some (1, 9, 0), some (1, 9, 0), some (1, 9, 0)] := by decide

/-! ### The page flush and the step (sections 2.7, 2.8) -/

/-- V-F5. -/
theorem test_render_drops :
    [Instr.render 3 2, .render 6 6, .render 0 6, .render 0xFF 0].map (fun i => dropOf i machine) =
      [some (1, 4, 0), some (1, 4, 0), some (1, 4, 0), some (1, 4, 0)] := by decide

/-- V-F7: a written byte is sent as it is. -/
theorem test_render_sends :
    (wireOf (.render 2 2) { machine with fb := [(168, 0x5A#8), (251, 0xA5#8), (252, 0xFF#8)] }).map
      (fun w => (w.take 3, w.drop 85)) =
      some ([(.cmd, 0x42#8), (.cmd, 0x80#8), (.data, 0x5A#8)], [(.data, 0xA5#8)]) := by decide

/-- V-I2: the pulse, then the bring-up burst. -/
theorem test_init_begins :
    (match exec .init machine with | .next t => t.trace.take 13 | _ => []) =
      [.rstAssert, .delay 5, .rstRelease, .delay 7, .selCmd, .beginTransfer, .byte 0x21#8, .byte 0x13#8,
        .byte 0xBF#8, .byte 0x20#8, .byte 0x09#8, .endTransfer, .selCmd] := by decide

/-- V-D2: the reserved opcode is dropped, and the next step runs the WCHAR behind it. -/
theorem test_step_reserved :
    (match step (hostOffer [0x7E#8, 0x10#8, 0x41#8] machine) with
      | .next t => (t.dropCnt, t.lastDrop, t.hostIn, t.busy, t.trace.length)
      | _ => (0, 0, [], true, 0)) = (1, 8, [0x10#8, 0x41#8], false, 0) := by decide

/-- V-D4: the beginning of a command is held. -/
theorem test_step_partial :
    (match step (hostOffer [0x10#8] machine) with
      | .next t => (t.held, t.hostIn, t.busy, t.dropCnt)
      | _ => ([], [], true, 0)) = ([0x10#8], [], false, 0) := by decide

/-- V-D6: the counter saturates. -/
theorem test_drop_saturates :
    (drop .badLine { machine with dropCnt := 0xFFFF }).dropCnt = 0xFFFF := by decide

/-! ### Hypotheses are met: for each obligation that has any, at the boundary of each clause -/

/-- A machine whose whole framebuffer is written. -/
def written : State := { machine with fb := Memory.writeRun [] 0 (blanks 504) }

theorem written_all (a : Nat) (h : a < 504) : (written.fb.read a).isSome = true := by
  show ((Memory.writeRun [] 0 (blanks 504)).read a).isSome = true
  rw [Memory.read_writeRun_zeros [] a h]
  rfl

/-- The tables absent and HAS_DIAG false. -/
def quietConfig : Config := { toParams := { Params.sample with hasDiag := false }, ok := Params.sample_valid }

theorem test_meets_DecodeOfEncodeIsTheCommand :
    (Instr.wbigstrB 0 4 [0x01#8, 0xFF#8]).wellFormed = true ∧ (Instr.wstr []).wellFormed = true := by decide

theorem test_meets_DecodedBytesAreAnEncoding :
    decode [0x11#8, 0x41#8, 0x00#8, 0x16#8] = .instr (.wstr [0x41]) [0x16] := by decide

theorem test_meets_ReservedOpcodeIsOneByteDrop :
    ∀ op ∈ [0x00#8, 0x05#8, 0x0F#8, 0x1B#8, 0x7F#8, 0x80#8, 0x8F#8, 0x97#8, 0x9A#8, 0xFF#8],
      machine.busy = false ∧ (hostOffer [op, 0x01#8] machine).held ++ (hostOffer [op, 0x01#8] machine).hostIn =
        op :: [0x01#8] ∧
      op ∉ [0x01#8, 0x02#8, 0x03#8, 0x04#8, 0x10#8, 0x11#8, 0x12#8, 0x13#8, 0x14#8, 0x15#8, 0x16#8, 0x17#8,
        0x18#8, 0x19#8, 0x1A#8, 0x90#8, 0x91#8, 0x92#8, 0x93#8, 0x94#8, 0x95#8, 0x96#8, 0x98#8, 0x99#8] := by
  decide

theorem test_meets_StepRunsTheDecodedCommand :
    machine.busy = false ∧
    decode ({ machine with held := [0x10#8], hostIn := [0x41#8, 0x16#8] }.held ++ [0x41#8, 0x16#8]) =
      .instr (.wchar 0x41) [0x16] := by decide

theorem test_meets_PartialCommandHasNoEffect :
    machine.busy = false ∧ decode (machine.held ++ machine.hostIn) = .incomplete ∧
    decode ([0x94#8] ++ [0x0A#8, 0x05#8, 0xFF#8, 0xFF#8]) = .incomplete := by decide

theorem test_meets_BusyBlockAcceptsNoByte : { machine with busy := true }.busy = true := rfl

theorem test_meets_InitedIsSetByInitAndNeverTested :
    ∃ t, step (hostOffer [0x16#8] { machine with inited := true }) = .next t := ⟨_, rfl⟩

theorem test_meets_OnlyInitPulsesTheResetLine :
    Instr.clrallB ≠ .init ∧ ∃ t, exec .clrallB machine = .next t := ⟨by decide, _, rfl⟩

theorem test_meets_SetposSendsBothMaskedSelects :
    machine.panel.pext = some false ∧ 83 < (84#8).toNat % 128 ∧ 83 < (0xFF#8).toNat % 128 ∧
    5 < (6#8).toNat % 8 ∧ 5 < (0xFF#8).toNat % 8 := by decide

theorem test_meets_SetposPlacesThePanelCursor :
    machine.panel.pext = some false ∧ (83#8).toNat % 128 = (83 : Fin 84).val ∧
    (5#8).toNat % 8 = (5 : Fin 6).val ∧ (0x8C#8).toNat % 128 = (12 : Fin 84).val ∧
    (0x0A#8).toNat % 8 = (2 : Fin 6).val := by decide

theorem test_meets_SetcellPositionsOrDrops :
    ((5#8).toNat ≤ 5 ∧ (13#8).toNat ≤ 13) ∧ 5 < (6#8).toNat ∧ 13 < (14#8).toNat := by decide

theorem test_meets_SetpageSendsThePageSelectOnly :
    machine.panel.pext = some false ∧ (13#8).toNat % 8 = (5 : Fin 6).val ∧ 5 < (6#8).toNat % 8 ∧
    5 < (7#8).toNat % 8 := by decide

/-- One command byte for each class of R71, and one panel for each state of `PEXT`. -/
theorem test_meets_PanelReadsCommandBytes :
    0x21#8 = testConfig.funcExt ∧ 0x20#8 = testConfig.funcBasic ∧
    (0x13#8 ≠ testConfig.funcExt ∧ 0x13#8 ≠ testConfig.funcBasic ∧
      { machine.panel with pext := some true }.pext = some true ∧ Panel.unknown.pext = none) ∧
    (machine.panel.pext = some false ∧ 0x45#8 &&& 0xF8#8 = testConfig.pageSelBase ∧
      (0x45#8 &&& 0x07#8).toNat = (5 : Fin 6).val) ∧
    (0xD3#8 &&& 0x80#8 = testConfig.colSelBase ∧ (0xD3#8 &&& 0x7F#8).toNat = (83 : Fin 84).val) ∧
    (0x0C#8 ≠ testConfig.funcExt ∧ 0x0C#8 ≠ testConfig.funcBasic ∧ 0x0C#8 &&& 0xF8#8 ≠ testConfig.pageSelBase ∧
      0x0C#8 &&& 0x80#8 ≠ testConfig.colSelBase) := by decide

theorem test_meets_UnknownCursorPoisonsThePanel :
    machine.panel.pext = some false ∧ (6 < 8 ∧ 5 < 6) ∧ (127 < 128 ∧ 83 < 84) ∧
    { machine.panel with py := none }.py = none := by decide

theorem test_meets_DataBurstFillsThePanelInOrder :
    (machineAt 83 5).panel.px = some 83 ∧ (machineAt 83 5).panel.py = some 5 ∧ (blanks 504).length ≤ 504 :=
  ⟨rfl, rfl, by simp⟩

theorem test_meets_WcharDrawsOrDrops :
    (0x20 ≤ (0x20#8).toNat ∧ (0x20#8).toNat ≤ 0x81) ∧ (0x20 ≤ (0x81#8).toNat ∧ (0x81#8).toNat ≤ 0x81) ∧
    (0x1F#8).toNat < 0x20 ∧ 0x81 < (0x82#8).toNat := by decide

theorem test_meets_WstrRoundTrip :
    ∀ c ∈ [0x20#8, 0x48#8, 0x81#8], 0x20 ≤ c.toNat ∧ c.toNat ≤ 0x81 := by decide

theorem test_meets_WiconSendsTheBitmap : (3#8).toNat < machine.cfg.nIcons := by decide

theorem test_meets_IconOutsideTheTableFaults :
    machine.cfg.nIcons ≤ (4#8).toNat ∧ ((83#8).toNat ≤ 83 ∧ (5#8).toNat ≤ 5) ∧ 83 < (84#8).toNat ∧
    5 < (6#8).toNat := by decide

/-- The clauses of the buffer-backed commands: a position in range, a column and a page out of range. -/
theorem test_meets_bufferPositions :
    ((83#8).toNat ≤ 83 ∧ (5#8).toNat ≤ 5) ∧ 83 < (84#8).toNat ∧ 5 < (6#8).toNat := by decide

theorem test_meets_WcharBWritesTheGlyph :
    (83#8).toNat ≤ 83 ∧ (5#8).toNat ≤ 5 ∧ (0x1F#8).toNat < 0x20 ∧ 0x81 < (0x82#8).toNat ∧
    0x20 ≤ (0x20#8).toNat ∧ (0x81#8).toNat ≤ 0x81 ∧ 83 < (84#8).toNat ∧ 5 < (6#8).toNat := by decide

theorem test_meets_WiconBWritesTheBitmap :
    (3#8).toNat < machine.cfg.nIcons ∧ ((83#8).toNat ≤ 83 ∧ (5#8).toNat ≤ 5) ∧ 83 < (84#8).toNat ∧
    5 < (6#8).toNat := by decide

theorem test_meets_ClrlineClearsOneRow :
    (5#8).toNat ≤ 5 ∧ machine.panel.pext = some false ∧ (5#8).toNat = (5 : Fin 6).val ∧ 5 < (6#8).toNat := by
  decide

theorem test_meets_ClrlineBZeroesOneRow :
    (5#8).toNat ≤ 5 ∧ ((5#8).toNat * 84 ≤ 503 ∧ 503 < (5#8).toNat * 84 + 84) ∧ 419 < (5#8).toNat * 84 ∧
    5 < (6#8).toNat := by decide

theorem test_meets_BigGlyphIsTheFirstMatch :
    testConfig.big = some bigTables ∧ 1 ≤ 1 ∧
    glyphBig bigTables 0x31 1 = some [0xD0#8, 0xD1#8, 0x00#8] ∧ 0x37#8 ∉ bigTables.chars := by decide

theorem test_meets_WbignumSendsTheHalfGlyph :
    machine.cfg.big = some bigTables ∧ 1 < (2#8).toNat ∧ (1#8).toNat ≤ 1 ∧ 0x37#8 ∉ bigTables.chars ∧
    0x31#8 ∈ bigTables.chars := by decide

theorem test_meets_WbignumBWritesTheHalfGlyph :
    machine.cfg.big = some bigTables ∧ (83 < (84#8).toNat ∧ 5 < (6#8).toNat) ∧
    ((83#8).toNat ≤ 83 ∧ (5#8).toNat ≤ 5) ∧ 1 < (2#8).toNat ∧ (1#8).toNat ≤ 1 ∧ 0x37#8 ∉ bigTables.chars ∧
    0x31#8 ∈ bigTables.chars := by decide

theorem test_meets_WbigstrDrawsTwoRows : machine.cfg.big = some bigTables := by decide

theorem test_meets_WbigstrBWritesTwoRows :
    machine.cfg.big = some bigTables ∧ (83 < (84#8).toNat ∧ 4 < (5#8).toNat) ∧
    ((83#8).toNat ≤ 83 ∧ (4#8).toNat ≤ 4) := by decide

theorem test_meets_BigCommandsDropWithoutTheFeature : plainMachine.cfg.big = none := rfl

theorem test_meets_RenderFlushesThePageRange :
    ((5#8).toNat ≤ (5#8).toNat ∧ (5#8).toNat ≤ 5) ∧ ((0#8).toNat ≤ (5#8).toNat) ∧ 5 < (6#8).toNat ∧
    (2#8).toNat < (3#8).toNat := by decide

theorem test_meets_RenderCopiesThePagesToThePanel :
    (0#8).toNat ≤ (5#8).toNat ∧ (5#8).toNat ≤ 5 ∧ written.panel.pext = some false ∧
    ∀ i, (0#8).toNat * 84 ≤ i → i < (5#8).toNat * 84 + 84 → (written.fb.read i).isSome = true :=
  ⟨by decide, by decide, rfl, fun i _ h => written_all i h⟩

theorem test_meets_RenderTwiceSendsTheSame :
    ∀ i, (5#8).toNat * 84 ≤ i → i < (5#8).toNat * 84 + 84 → (written.fb.read i).isSome = true :=
  fun i _ h => written_all i h

theorem test_meets_BufferPathMirrorsAfterRender :
    ∃ t u, exec .init machine = .next t ∧ execAll [.whexB 6 3 0x0F, .render 0 3, .setpos 0 6, .junk] t = .next u :=
  ⟨_, _, exec_init_eq machine, rfl⟩

theorem test_meets_BufferedDrawingMirrorsDirectDrawing :
    (machine.cfg = (machineAt 83 5).cfg ∧ (machineAt 83 5).panel.px = some 83 ∧
      (machineAt 83 5).panel.py = some 5 ∧ (83#8).toNat = (83 : Fin 84).val ∧ (5#8).toNat = (5 : Fin 6).val ∧
      machine.fb = (machineAt 83 5).panel.pram ∧ companionAt 83 5 (.wchar 0x41) = some (.wcharB 83 5 0x41) ∧
      ∃ t, exec (.wchar 0x41) (machineAt 83 5) = .next t) ∧
    (machine.cfg = (machineAt 83 5).cfg ∧ (machineAt 83 5).panel.pext = some false ∧
      machine.fb = (machineAt 83 5).panel.pram ∧ companionPlaced (.clrline 5) = some (.clrlineB 5) ∧
      companionPlaced (.clrline 6) = some (.clrlineB 6) ∧ companionPlaced .clrall = some .clrallB ∧
      companionPlaced (.wbigstr 83 4 [0x31]) = some (.wbigstrB 83 4 [0x31])) :=
  ⟨⟨rfl, rfl, rfl, rfl, rfl, rfl, rfl, _, rfl⟩, rfl, rfl, rfl, rfl, rfl, rfl, rfl⟩

/-- The two rows of WBIGSTR.B must be pages of the buffer (R174); elsewhere the variants differ. -/
theorem test_companionPlaced_edge :
    companionPlaced (.wbigstr 84 4 []) = none ∧ companionPlaced (.wbigstr 83 5 []) = none := by decide

theorem test_meets_FramebufferAccessIsConfined :
    (writesBuffer .clrall = false ∧ ∃ t, exec .clrall machine = .next t) ∧
    (isBuffered .clrallB = true ∧ ∃ t, exec .clrallB machine = .next t) ∧
    ((∀ a b, Instr.clrlineB 5 ≠ .render a b) ∧ ∃ t, exec (.clrlineB 5) machine = .next t) ∧
    ((∀ a b, Instr.junk ≠ .render a b) ∧ ∃ t, exec .junk machine = .next t) :=
  ⟨⟨rfl, _, rfl⟩, ⟨rfl, _, rfl⟩, ⟨by simp, _, rfl⟩, ⟨by simp, _, rfl⟩⟩

/-- The hypothesis that a step answers a next state, from `State.reset`, idle and with a command offered. -/
theorem test_meets_steps :
    (∃ t, step State.reset = .next t) ∧ ∃ t, step (hostOffer [0x02#8, 0x0C#8, 0x02#8] machine) = .next t :=
  ⟨⟨_, rfl⟩, ⟨_, rfl⟩⟩

theorem test_meets_DiagnosticChannelIsNeutral :
    SameButDiag plainMachine { State.powerOn quietConfig with dc := .cmd, dropCnt := 7, lastDrop := 2 } :=
  ⟨rfl, rfl, rfl, rfl, rfl, rfl, rfl, rfl, rfl, rfl, rfl, rfl⟩

theorem test_meets_StepKeepsMemoriesCanonical :
    MemoriesCanonical { machine with fb := [(0, 0x01#8), (503, 0x02#8)] } := by
  unfold MemoriesCanonical
  decide

theorem test_meets_StepKeepsLinesIdle : LinesIdle machine := ⟨rfl, rfl, rfl⟩

theorem test_meets_StepKeepsDiagConsistent :
    DiagConsistent { machine with dropCnt := 0xFFFF, lastDrop := 9 } ∧ DiagConsistent machine := by
  unfold DiagConsistent
  decide

theorem test_meets_StepKeepsInitedPrepared :
    InitedPrepared { written with inited := true } ∧ { written with inited := true }.inited = true :=
  ⟨fun _ => ⟨written_all, rfl⟩, rfl⟩

theorem test_meets_StepKeepsPanelFollowsTrace :
    PanelFollowsTrace (State.powerOn testConfig) ∧
    PanelFollowsTrace (txs (burst .data [0x5A#8]) (State.powerOn testConfig)) :=
  ⟨⟨rfl, rfl⟩, ⟨rfl, rfl⟩⟩

theorem test_meets_StepKeepsDecoderPartial :
    DecoderPartial { machine with held := [0x11#8, 0x41#8] } ∧ DecoderPartial machine := ⟨rfl, rfl⟩

end Sys2Proof.Tests
end

/-! ### Proofs of the state family (spec/10_state.md) -/

namespace Sys2Proof.Machine

/-! #### What any step can change -/

/-- Everything that a step answering `t` from `s` does to the configuration, `BUSY`, the transport, the
memories and the diagnostic registers: some transport events that leave the idle lines idle, some runs of
framebuffer writes and `n` drops with cause `c`. The invariants below are read off these fields. -/
structure StepChanges (s t : State) (events : List Event) (runs : List (FbIndex × List Byte)) (c : Cause)
    (n : Nat) : Prop where
  cfg : t.cfg = s.cfg
  busy : t.busy = s.busy
  transmits : Transmits s t events
  chipEnable : events.foldl chipEnableAfter .released = .released
  resetLine : events.foldl resetLineAfter .released = .released
  fb : t.fb = writeRuns runs s.fb
  drops : Drops s t c n

theorem apply_transmits (e : Effect) (s : State) : Transmits s (e.apply s) e.events :=
  ⟨apply_trace e s, apply_dc e s, apply_ce e s, apply_rst e s, apply_panel e s⟩

/-- The four ways a step answers (`step_cases`) in one form. -/
theorem step_changes {s t : State} (h : step s = .next t) :
    ∃ events runs c n, StepChanges s t events runs c n := by
  obtain ⟨-, rfl⟩ | ⟨hbusy, i, rest, e, -, he, rfl⟩ | ⟨hbusy, op, rest, -, rfl⟩ | ⟨hbusy, -, rfl⟩ :=
    step_cases h
  · exact ⟨[], [], .unknownOp, 0, rfl, rfl, by simp [Transmits, panelReplay], rfl, rfl, rfl,
      dropTimes_drops _ 0 t⟩
  · obtain ⟨hce, hrst⟩ := effectOf_lines he
    exact ⟨e.events, e.runs, e.cause, e.drops, apply_cfg e _, hbusy.symm,
      apply_transmits e (acceptCommand rest s), hce, hrst, apply_fb e _,
      apply_drops e (acceptCommand rest s)⟩
  · exact ⟨[], [], .unknownOp, 1, rfl, hbusy.symm, by simp [Transmits, panelReplay, runReserved], rfl, rfl,
      rfl, drop_drops .unknownOp s⟩
  · exact ⟨[], [], .unknownOp, 0, rfl, rfl, by simp [Transmits, panelReplay], rfl, rfl, rfl,
      dropTimes_drops _ 0 s⟩

/-! #### What drops do to consistent diagnostic registers -/

/-- Any number of drops keeps the diagnostic registers consistent (R26, R192, R193). -/
theorem Drops.diagConsistent {s t : State} {c : Cause} {n : Nat} (h : Drops s t c n) (hcfg : t.cfg = s.cfg)
    (hs : DiagConsistent s) : DiagConsistent t := by
  obtain ⟨hle, hiff, habsent⟩ := hs
  obtain ⟨hcounted, hquiet⟩ := h
  cases hd : s.cfg.hasDiag with
  | false =>
    obtain ⟨hcnt, hlast⟩ := hquiet hd
    refine ⟨?_, ?_, fun _ => ?_⟩
    · rwa [hlast]
    · rwa [hlast, hcnt]
    · rw [hcnt, habsent hd]
  | true =>
    obtain ⟨hcnt, hlast⟩ := hcounted hd
    have hpresent : t.cfg.hasDiag = false → t.dropCnt = 0 := fun h0 => by simp [hcfg, hd] at h0
    cases n with
    | zero =>
      have hcnt : t.dropCnt = s.dropCnt := BitVec.eq_of_toNat_eq (by have := s.dropCnt.isLt; omega)
      rw [if_pos rfl] at hlast
      exact ⟨by rwa [hlast], by rwa [hlast, hcnt], hpresent⟩
    | succ n =>
      have hne : t.dropCnt ≠ 0 := fun h0 => by
        rw [h0, show (0 : BitVec 16).toNat = 0 from rfl] at hcnt
        omega
      rw [if_neg (Nat.succ_ne_zero n)] at hlast
      exact ⟨by rw [hlast]; exact causeCode_le c, by simp only [hlast, causeCode_ne_zero c, hne], hpresent⟩

/-! #### An effect on other framebuffer contents -/

/-- An effect with other framebuffer contents differs in the framebuffer alone. -/
theorem apply_withBuffer (e : Effect) (s : State) (m : Memory) :
    e.apply { s with fb := m } = { e.apply s with fb := writeRuns e.runs m } := by
  have h := dropTimes_update e.cause e.drops (txs e.events s) m s.inited
  rw [Effect.apply, show txs e.events { s with fb := m } =
    { txs e.events s with fb := m, inited := s.inited } from rfl, h]
  rfl

/-! #### The invariants -/

/-- Settles O54: writes keep the framebuffer canonical, and what the panel receives keeps its RAM so. -/
theorem stepKeepsMemoriesCanonical : Obligations.StepKeepsMemoriesCanonical := by
  intro s t ⟨hfb, hpram⟩ h
  obtain ⟨events, runs, c, n, ch⟩ := step_changes h
  obtain ⟨-, -, -, -, hpanel⟩ := ch.transmits
  refine ⟨?_, ?_⟩
  · rw [ch.fb]
    exact writeRuns_wf runs s.fb hfb
  · rw [hpanel]
    exact panelReplay_wf s.cfg.toParams s.dc s.panel events hpram

/-- Settles O55: the events of every step release what they assert. -/
theorem stepKeepsLinesIdle : Obligations.StepKeepsLinesIdle := by
  intro s t ⟨hce, hrst, hbusy⟩ h
  obtain ⟨events, runs, c, n, ch⟩ := step_changes h
  obtain ⟨-, -, hce', hrst', -⟩ := ch.transmits
  refine ⟨?_, ?_, ?_⟩
  · rw [hce', hce, ch.chipEnable]
  · rw [hrst', hrst, ch.resetLine]
  · rw [ch.busy, hbusy]

/-- Settles O56: only drops touch the diagnostic registers. -/
theorem stepKeepsDiagConsistent : Obligations.StepKeepsDiagConsistent := by
  intro s t hs h
  obtain ⟨events, runs, c, n, ch⟩ := step_changes h
  exact ch.drops.diagConsistent ch.cfg hs

/-- Settles O58: the replay of a longer trace goes on from the replay of the old one. -/
theorem stepKeepsPanelFollowsTrace : Obligations.StepKeepsPanelFollowsTrace := by
  intro s t ⟨hdc, hpanel⟩ h
  obtain ⟨events, runs, c, n, ch⟩ := step_changes h
  obtain ⟨htrace', hdc', -, -, hpanel'⟩ := ch.transmits
  refine ⟨?_, ?_⟩
  · rw [hdc', hdc, htrace', List.foldl_append]
  · rw [hpanel', ch.cfg, htrace', panelReplay_append, ← hdc, ← hpanel]

/-- Settles O50: by the class of each command's effect (`effectOf_frame`), and because the effect of a
command other than RENDER does not depend on the framebuffer (`effectOf_fb`). -/
theorem framebufferAccessIsConfined : Obligations.FramebufferAccessIsConfined := by
  refine ⟨?_, ?_, ?_⟩
  · intro i s t h hi a
    obtain ⟨e, he, rfl⟩ := exec_next h
    obtain ⟨-, -, -, hruns, -⟩ := effectOf_frame he
    rw [apply_fb, hruns hi]
    rfl
  · intro i s t h hi
    obtain ⟨e, he, rfl⟩ := exec_next h
    obtain ⟨hpulse, -, hbursts, -, -⟩ := effectOf_frame he
    have hinit : i ≠ .init := fun h0 => by simp [h0, isBuffered] at hi
    have hevents : e.events = [] := by simp [Effect.events, hpulse, hinit, hbursts hi]
    simp [SameTransport, hevents, panelReplay]
  · intro i s t m hi h
    obtain ⟨e, he, rfl⟩ := exec_next h
    refine ⟨e.apply { s with fb := m }, ?_, ?_⟩
    · rw [exec_eq_effect, effectOf_fb _ m s.fb _ _ hi, he]
    · rw [apply_withBuffer]
      exact ⟨rfl, rfl, rfl, rfl, fun a => writeRuns_either e.runs m s.fb a⟩

/-- Settles O51: every step appends the events it transmits. -/
theorem traceOnlyGrows : Obligations.TraceOnlyGrows := by
  refine ⟨rfl, fun s t h => ?_⟩
  obtain ⟨events, runs, c, n, ch⟩ := step_changes h
  obtain ⟨htrace, -, -, -, -⟩ := ch.transmits
  exact ⟨events, htrace⟩

/-- Settles O52: no part of a step writes the configuration. -/
theorem configurationNeverChanges : Obligations.ConfigurationNeverChanges := by
  intro s t h
  obtain ⟨events, runs, c, n, ch⟩ := step_changes h
  exact ch.cfg

/-! #### Power-on -/

/-- Settles O8: each clause is the field the power-on state gives (R40). -/
theorem powerOnState : Obligations.PowerOnState :=
  ⟨fun _ => rfl, rfl, fun _ => ⟨_, rfl, rfl, fun _ => rfl, rfl, rfl, rfl, rfl, rfl, rfl, rfl, rfl, rfl, rfl, rfl,
    fun _ => rfl⟩⟩

/-- The power-on state of any configuration meets every invariant: its memories and its trace are empty,
its diagnostic registers 0 and its decoder idle (R40, R220). -/
theorem powerOn_meets_invariants (cfg : Config) :
    MemoriesCanonical (State.powerOn cfg) ∧ LinesIdle (State.powerOn cfg) ∧
    DiagConsistent (State.powerOn cfg) ∧ InitedPrepared (State.powerOn cfg) ∧
    PanelFollowsTrace (State.powerOn cfg) ∧ DecoderPartial (State.powerOn cfg) := by
  refine ⟨⟨Memory.nil_wf, Memory.nil_wf⟩, ⟨rfl, rfl, rfl⟩, ⟨?_, ?_, fun _ => rfl⟩, ?_, ⟨rfl, rfl⟩, rfl⟩
  · exact Nat.zero_le 9
  · exact ⟨fun _ => rfl, fun _ => rfl⟩
  · intro hinited
    cases hinited

/-- Settles O59: reset is the power-on state of the implementation's configuration. -/
theorem resetMeetsTheInvariants : Obligations.ResetMeetsTheInvariants :=
  powerOn_meets_invariants Config.implementation

end Sys2Proof.Machine

/-! ### Proofs of the memory family (spec/20_memory.md) -/

namespace Sys2Proof.Machine

/-! #### The classes of command bytes (R71) -/

theorem command_funcExt (cfg : Config) (p : Panel) :
    p.command cfg.toParams cfg.funcExt = { p with pext := some true } := if_pos rfl

theorem command_funcBasic (cfg : Config) (p : Panel) :
    p.command cfg.toParams cfg.funcBasic = { p with pext := some false } := by
  obtain ⟨-, -, -, hne, -, -⟩ := config_commands cfg
  rw [Panel.command, if_neg hne.symm, if_pos rfl]

section
variable (params : Params) (p : Panel) {c : Byte} (hext : c ≠ params.funcExt) (hbasic : c ≠ params.funcBasic)
include hext hbasic

/-- In the extended set a byte that is neither function-set byte is opaque (R71). -/
theorem command_extendedSet (hp : p.pext = some true) : p.command params c = p := by
  simp [Panel.command, hext, hbasic, hp]

/-- In the basic set a byte that is neither function-set byte is decoded (R71). -/
theorem command_basicSet (hp : p.pext = some false) : p.command params c = p.basicCommand params c := by
  simp [Panel.command, hext, hbasic, hp]

/-- While the set is unknown a byte that is neither function-set byte loses the cursor (R71). -/
theorem command_unknownSet (hp : p.pext = none) : p.command params c = p.loseCursor := by
  simp [Panel.command, hext, hbasic, hp]

end

/-- A select byte is neither function-set byte (log 3). -/
theorem select_ne_func (cfg : Config) {c : Byte}
    (h : cfg.toParams.isPageSelect c = true ∨ cfg.toParams.isColSelect c = true) :
    c ≠ cfg.funcExt ∧ c ≠ cfg.funcBasic := by
  obtain ⟨-, -, -, -, hnone, -⟩ := config_commands cfg
  constructor
  · rintro rfl
    simp [hnone cfg.funcExt (by simp)] at h
  · rintro rfl
    simp [hnone cfg.funcBasic (by simp)] at h

/-- No byte is both a page and a column select (log 3). -/
theorem not_isPageSelect_of_isColSelect (cfg : Config) {c : Byte} (h : cfg.toParams.isColSelect c = true) :
    cfg.toParams.isPageSelect c = false := by
  obtain ⟨-, -, hne, -, -, -⟩ := config_commands cfg
  simp only [Params.isColSelect, Params.isPageSelect, beq_iff_eq, beq_eq_false_iff_ne] at h ⊢
  intro hpage
  apply hne
  rw [← hpage, BitVec.and_assoc]
  exact h

theorem command_of_isPageSelect (cfg : Config) (p : Panel) (hp : p.pext = some false) {c : Byte}
    (h : cfg.toParams.isPageSelect c = true) :
    p.command cfg.toParams c = p.selectPage (c &&& 0x07#8).toNat := by
  obtain ⟨hext, hbasic⟩ := select_ne_func cfg (.inl h)
  rw [command_basicSet _ _ hext hbasic hp, Panel.basicCommand, if_pos h]

theorem command_of_isColSelect (cfg : Config) (p : Panel) (hp : p.pext = some false) {c : Byte}
    (h : cfg.toParams.isColSelect c = true) :
    p.command cfg.toParams c = p.selectCol (c &&& 0x7F#8).toNat := by
  obtain ⟨hext, hbasic⟩ := select_ne_func cfg (.inr h)
  rw [command_basicSet _ _ hext hbasic hp]
  simp [Panel.basicCommand, not_isPageSelect_of_isColSelect cfg h, h]

@[simp] theorem selectPage_fin (p : Panel) (y : Fin 6) : p.selectPage y.val = { p with py := some y } :=
  dif_pos y.isLt

@[simp] theorem selectCol_fin (p : Panel) (x : Fin 84) : p.selectCol x.val = { p with px := some x } :=
  dif_pos x.isLt

theorem selectPage_off (p : Panel) {n : Nat} (h : 5 < n) : p.selectPage n = p.loseCursor :=
  dif_neg (by omega)

theorem selectCol_off (p : Panel) {n : Nat} (h : 83 < n) : p.selectCol n = p.loseCursor :=
  dif_neg (by omega)

/-- A page field sent under its base, in the basic set (R71, R130). -/
theorem command_base_page (cfg : Config) (p : Panel) (hp : p.pext = some false) {n : Nat} (h : n < 8) :
    p.command cfg.toParams (cfg.pageSelBase ||| BitVec.ofNat 8 n) = p.selectPage n := by
  rw [base_page cfg n h, command_pageSelect cfg p hp, Nat.mod_eq_of_lt h]

/-- A column field sent under its base, in the basic set (R71, R130). -/
theorem command_base_col (cfg : Config) (p : Panel) (hp : p.pext = some false) {n : Nat} (h : n < 128) :
    p.command cfg.toParams (cfg.colSelBase ||| BitVec.ofNat 8 n) = p.selectCol n := by
  rw [base_col cfg n h, command_colSelect cfg p hp, Nat.mod_eq_of_lt h]

/-! #### The panel's cursor and its RAM -/

/-- Settles O14: the two selects of SETPOS, each masked, place the cursor. -/
theorem setposPlacesThePanelCursor : Obligations.SetposPlacesThePanelCursor := by
  intro s col page x y hp hx hy
  refine ⟨setPosition col.toNat page.toNat s, rfl, ?_⟩
  rw [setPosition_eq_txs, txs_panel, panelReplay_position s.cfg s.dc s.panel hp, hx, hy, position_known]

/-- Settles O17: by the class of the byte, since the classes do not overlap. -/
theorem panelReadsCommandBytes : Obligations.PanelReadsCommandBytes := by
  intro cfg p c
  refine ⟨?_, ?_, ?_, ?_, ?_, ?_, ?_⟩
  · rintro rfl
    exact command_funcExt cfg p
  · rintro rfl
    exact command_funcBasic cfg p
  · exact command_extendedSet cfg.toParams p
  · exact command_unknownSet cfg.toParams p
  · intro hp hpage y hy
    rw [command_of_isPageSelect cfg p hp (beq_iff_eq.2 hpage), hy, selectPage_fin]
  · intro hp hcol x hx
    rw [command_of_isColSelect cfg p hp (beq_iff_eq.2 hcol), hx, selectCol_fin]
  · intro hp hext hbasic hpage hcol
    rw [command_basicSet _ _ hext hbasic hp]
    simp [Panel.basicCommand, Params.isPageSelect, Params.isColSelect, hpage, hcol]

theorem cursor_eq_none {p : Panel} (h : p.px = none ∨ p.py = none) : p.cursor = none := by
  obtain ⟨px, py, pram, pext⟩ := p
  obtain rfl | rfl : px = none ∨ py = none := h
  · rfl
  · cases px <;> rfl

/-- Settles O18: a select's field within its mask decides, and data at an unknown cursor forgets all. -/
theorem unknownCursorPoisonsThePanel : Obligations.UnknownCursorPoisonsThePanel := by
  intro cfg p
  refine ⟨?_, ?_, ?_, ?_⟩
  · intro n hp hn hoff
    rw [command_base_page cfg p hp hn, selectPage_off p hoff]
    rfl
  · intro n hp hn hoff
    rw [command_base_col cfg p hp hn, selectCol_off p hoff]
    rfl
  · intro b bytes hunknown
    exact dataRun_unknown p (cursor_eq_none hunknown) b bytes
  · intro x y hp
    have hpage : ∀ q : Panel, q.pext = some false →
        q.command cfg.toParams (cfg.pageSelBase ||| BitVec.ofNat 8 y.val) = { q with py := some y } :=
      fun q hq => by rw [command_base_page cfg q hq (by omega), selectPage_fin]
    have hcol : ∀ q : Panel, q.pext = some false →
        q.command cfg.toParams (cfg.colSelBase ||| BitVec.ofNat 8 x.val) = { q with px := some x } :=
      fun q hq => by rw [command_base_col cfg q hq (by omega), selectCol_fin]
    refine ⟨hpage p hp, hcol p hp, ?_, ?_⟩
    · rw [hpage p hp]
      exact hcol _ hp
    · rw [hcol p hp]
      exact hpage _ hp

theorem sendData_panel (bytes : List Byte) (s : State) :
    (sendData bytes s).panel = bytes.foldl Panel.data s.panel := by
  rw [sendData_eq_txs, txs_panel, panelReplay_data]

/-- Settles O19: a data burst at a known cursor is one run of writes from its index (`dataRun_known`). -/
theorem dataBurstFillsThePanelInOrder : Obligations.DataBurstFillsThePanelInOrder := by
  intro s bytes x y hx hy hlen
  obtain ⟨x', y', he, hcursor⟩ := dataRun_known s.panel x y hx hy bytes
  rw [sendData_panel, he]
  refine ⟨x', y', rfl, rfl, ?_, rfl, ?_, ?_⟩
  · exact (congrArg Fin.val hcursor).trans (indexAfter_val _ _)
  · exact Memory.read_writeRun_short s.panel.pram (cursorIndex x y) bytes hlen
  · exact Memory.read_writeRun_other s.panel.pram (cursorIndex x y) bytes

/-! #### Icons outside the table (U1, log 8) -/

/-- Settles O25: WICON stops at once; WICON.B only where the position check lets the read happen. -/
theorem iconOutsideTheTableFaults : Obligations.IconOutsideTheTableFaults := by
  intro s col page ordinal hout
  have hicon : iconOk s.cfg.toParams ordinal = false := decide_eq_false (Nat.not_lt.2 hout)
  refine ⟨?_, ?_, ?_⟩
  · rw [exec_eq_effect]
    simp [effectOf, hicon, ordinalOf]
  · intro hcol hpage
    obtain ⟨bp, hbp, -⟩ := bufStart_of_le hcol hpage
    rw [exec_eq_effect]
    simp [effectOf, hicon, hbp, ordinalOf]
  · intro hoff
    have hbp := bufStart_none hoff
    refine ⟨drop .badBufPos s, ?_, drop_onlyDrops .badBufPos s⟩
    rw [exec_eq_effect]
    simp [effectOf, hbp, effectAt, apply_oneDrop]

/-! #### The buffer path: INIT, any commands, RENDER (R77) -/

/-- A property that every command keeps holds after any commands (R80). -/
theorem execAll_keeps {P : State → Prop} (hkeep : ∀ i s t, exec i s = .next t → P s → P t)
    {commands : List Instr} {s t : State} (h : execAll commands s = .next t) (hs : P s) : P t := by
  induction commands generalizing s with
  | nil =>
    cases h
    exact hs
  | cons i rest ih =>
    simp only [execAll] at h
    split at h
    · next u hu => exact ih h (hkeep i s u hu hs)
    · cases h
    · cases h

/-- INIT writes the whole framebuffer and leaves the basic instruction set selected (R125). -/
theorem init_prepares {s t : State} (h : exec .init s = .next t) :
    (∀ a, a < 504 → (t.fb.read a).isSome = true) ∧ t.panel.pext = some false := by
  rw [exec_init_eq] at h
  cases h
  obtain ⟨m, hpanel, -⟩ := init_panel s.cfg s.dc s.panel
  constructor
  · intro a ha
    simp [Memory.read_writeRun_zeros s.fb a ha]
  · simp [hpanel]

/-- Every command keeps an initialised block prepared: a written byte stays written, and only INIT leaves
the basic instruction set, to return to it (R125, R226). -/
theorem exec_keeps_initedPrepared {i : Instr} {s t : State} (h : exec i s = .next t)
    (hs : InitedPrepared s) : InitedPrepared t := by
  by_cases hi : i = .init
  · subst hi
    exact fun _ => init_prepares h
  · obtain ⟨e, he, rfl⟩ := exec_next h
    obtain ⟨hpulse, hsets, -, -, -⟩ := effectOf_frame he
    rw [if_neg hi] at hpulse
    intro hinited
    obtain ⟨hfb, hpext⟩ := hs (by simpa [hsets, hi] using hinited)
    constructor
    · exact fun a ha => writeRuns_isSome e.runs s.fb a (hfb a ha)
    · rw [apply_panel, Effect.events, hpulse, List.nil_append]
      exact panelReplay_bursts_pext _ _ _ _ (effectOf_commandBytes hi he) hpext

theorem exec_keeps_inited {i : Instr} {s t : State} (h : exec i s = .next t) (hs : s.inited = true) :
    t.inited = true := by
  obtain ⟨e, -, rfl⟩ := exec_next h
  rw [apply_inited, hs, Bool.true_or]

theorem exec_init_inited {s t : State} (h : exec .init s = .next t) : t.inited = true := by
  rw [exec_init_eq] at h
  cases h
  rfl

/-- The bytes stored at `n` consecutive addresses from `a`, all of them written. -/
def storedBytes (fb : Memory) (a n : Nat) : List Byte := (List.range n).map (fun k => (fb.read (a + k)).getD 0x00#8)

@[simp] theorem length_storedBytes (fb : Memory) (a n : Nat) : (storedBytes fb a n).length = n := by
  simp [storedBytes]

theorem storedBytes_getElem? {fb : Memory} {a n k : Nat} {v : Byte} (hk : k < n)
    (hv : fb.read (a + k) = some v) : (storedBytes fb a n)[k]? = some v := by
  simp [storedBytes, hk, hv]

/-- A command whose effect is known answers the next state it makes. -/
theorem exec_of_effect {i : Instr} {s : State} {e : Effect}
    (he : effectOf s.cfg.toParams s.fb s.draws i = some e) : exec i s = .next (e.apply s) := by
  rw [exec_eq_effect, he]

/-- RENDER of written pages sends exactly the framebuffer's bytes, from the first page on (R180, R181). -/
theorem exec_render_written {a b : Byte} {s : State} (hab : a.toNat ≤ b.toNat) (hb : b.toNat ≤ 5)
    (hw : ∀ i, a.toNat * 84 ≤ i → i < b.toNat * 84 + 84 → (s.fb.read i).isSome = true) :
    exec (.render a b) s = .next (txs (burst .cmd (positionBytes s.cfg.toParams 0 a.toNat) ++
      burst .data (storedBytes s.fb (a.toNat * 84) ((b.toNat - a.toNat + 1) * 84))) s) := by
  have hok : rangeOk a b = true := by simp [rangeOk, hab, hb, hab.trans hb]
  obtain ⟨hdraws, hbytes⟩ := fbReadRun_written s.fb s.draws (a.toNat * 84) ((b.toNat - a.toNat + 1) * 84)
    (fun k hk => hw _ (by omega) (by omega))
  rw [exec_eq_effect]
  simp [effectOf, hok, hdraws, hbytes, apply_bursts, storedBytes]

/-- RENDER of written pages makes the panel RAM equal to the framebuffer on the range (R183). -/
theorem render_written_mirrors {a b : Byte} {s : State} (hab : a.toNat ≤ b.toNat) (hb : b.toNat ≤ 5)
    (hp : s.panel.pext = some false)
    (hw : ∀ i, a.toNat * 84 ≤ i → i < b.toNat * 84 + 84 → (s.fb.read i).isSome = true) :
    ∃ t, exec (.render a b) s = .next t ∧ t.fb = s.fb ∧
      ∀ i, a.toNat * 84 ≤ i → i < b.toNat * 84 + 84 → t.panel.pram.read i = s.fb.read i := by
  refine ⟨_, exec_render_written hab hb hw, txs_fb _ _, fun i hai hib => ?_⟩
  obtain ⟨v, hv⟩ := Option.isSome_iff_exists.1 (hw i hai hib)
  obtain ⟨k, rfl⟩ := Nat.exists_eq_add_of_le hai
  have hlast : a.toNat < 6 := by omega
  obtain ⟨x', y', hpanel⟩ := panelReplay_placed s.cfg s.dc s.panel hp 0 ⟨a.toNat, hlast⟩
    [storedBytes s.fb (a.toNat * 84) ((b.toNat - a.toNat + 1) * 84)]
  have hread := Memory.read_writeRun_short s.panel.pram (cursorIndex 0 ⟨a.toNat, hlast⟩)
    (storedBytes s.fb (a.toNat * 84) ((b.toNat - a.toNat + 1) * 84)) (by rw [length_storedBytes]; omega) k v
    (storedBytes_getElem? (by omega) hv)
  have hindex : ((cursorIndex 0 ⟨a.toNat, hlast⟩).val + k) % 504 = a.toNat * 84 + k := by
    simp only [cursorIndex, Fin.val_zero]
    omega
  rw [hindex] at hread
  simp only [Fin.val_zero, List.flatMap_singleton, List.flatten_singleton] at hpanel
  rw [txs_panel, hpanel, hv]
  exact hread

/-- Settles O47: INIT prepares the block, every command keeps it so, and RENDER then mirrors all pages. -/
theorem bufferPathMirrorsAfterRender : Obligations.BufferPathMirrorsAfterRender := by
  intro s t0 u commands hinit hrun
  have hready : u.inited = true ∧ InitedPrepared u :=
    execAll_keeps (P := fun s => s.inited = true ∧ InitedPrepared s)
      (fun i s t h hs => ⟨exec_keeps_inited h hs.1, exec_keeps_initedPrepared h hs.2⟩) hrun
      ⟨exec_init_inited hinit, fun _ => init_prepares hinit⟩
  obtain ⟨hinited, hprepared⟩ := hready
  obtain ⟨hfb, hpext⟩ := hprepared hinited
  obtain ⟨t, ht, htfb, hmirror⟩ :=
    render_written_mirrors (a := 0) (b := 5) (s := u) (by decide) (by decide) hpext (fun i _ hi => hfb i hi)
  refine ⟨t, ht, fun a ha => ?_⟩
  obtain ⟨v, hv⟩ := Option.isSome_iff_exists.1 (hfb a ha)
  exact ⟨v, (hmirror a (Nat.zero_le a) ha).trans hv, htfb ▸ hv⟩

/-! #### A buffer-backed command and its direct variant (R66, R67, R93) -/

/-- A direct effect and its buffer-backed companion at the index `bp`: the one sends, in data bursts, exactly
the bytes that the other writes from `bp` on. -/
def MirrorsAt (bp : FbIndex) (direct buffered : Effect) : Prop :=
  ∃ pieces : List (List Byte), direct.events = pieces.flatMap (burst .data) ∧
    ∀ m, writeRuns buffered.runs m = m.writeRun bp pieces.flatten

theorem mirrorsAt_items (c : Cause) (glyph : Byte → Option (List Byte)) (text : List Byte) (bp : FbIndex)
    (draws draws' : Nat) :
    MirrorsAt bp (itemsDirect c glyph text draws) (itemsBuffered c glyph text bp draws') :=
  ⟨text.map (fun b => (glyph b).getD []), by simp [itemsDirect, Effect.events, List.flatMap_map],
    fun m => by simp [itemsBuffered, writeRuns, itemBytes, List.flatMap_def]⟩

theorem mirrorsAt_bytes (bytes : List Byte) (bp : FbIndex) (draws draws' : Nat) :
    MirrorsAt bp { bursts := [(.data, bytes)], draws := draws } { runs := [(bp, bytes)], draws := draws' } :=
  ⟨[bytes], by simp [Effect.events], fun m => by simp [writeRuns]⟩

theorem mirrorsAt_drop (c c' : Cause) (bp : FbIndex) (draws draws' : Nat) :
    MirrorsAt bp (oneDrop c draws) (oneDrop c' draws') :=
  ⟨[], rfl, fun _ => rfl⟩

/-- The companion of a direct command that draws where the cursor is runs whenever the command does, and
mirrors it at the position (R93). -/
theorem companionAt_mirrors {p : Params} {fb fb' : Memory} {draws draws' : Nat} {i j : Instr} {e : Effect}
    {col page : Byte} {bp : FbIndex} (hbp : bufStart col page = some bp) (hj : companionAt col page i = some j)
    (he : effectOf p fb draws i = some e) : ∃ f, effectOf p fb' draws' j = some f ∧ MirrorsAt bp e f := by
  cases i with
  | wchar _ | wstr _ | whex _ =>
    cases hj
    cases he
    simp only [effectOf, effectAt, hbp, Option.some.injEq, exists_eq_left']
    exact mirrorsAt_items _ _ _ _ _ _
  | wbits lo hi dir =>
    cases hj
    cases he
    simp only [effectOf, effectAt, hbp, Option.some.injEq, exists_eq_left']
    exact mirrorsAt_bytes _ _ _ _
  | wicon ordinal =>
    cases hj
    simp only [effectOf] at he
    split at he
    · next hicon =>
      cases he
      simp only [effectOf, effectAt, hbp, hicon, Bool.true_or, if_true, Option.some.injEq, exists_eq_left']
      exact mirrorsAt_bytes _ _ _ _
    · cases he
  | wbignum code half =>
    cases hj
    cases hbig : p.big with
    | none =>
      simp only [effectOf, hbig, Option.some.injEq, exists_eq_left'] at he ⊢
      exact he ▸ mirrorsAt_drop _ _ _ _ _
    | some t =>
      by_cases hhalf : half.toNat ≤ 1
      · simp only [effectOf, effectAt, hbp, hbig, hhalf, if_true, Option.some.injEq, exists_eq_left'] at he ⊢
        exact he ▸ mirrorsAt_items _ _ _ _ _ _
      · simp only [effectOf, effectAt, hbp, hbig, hhalf, if_false, Option.some.injEq, exists_eq_left'] at he ⊢
        exact he ▸ mirrorsAt_drop _ _ _ _ _
  | _ => cases hj

/-- Effects that mirror each other at the cursor's index, on memories of the same contents (R67, R72). -/
theorem MirrorsAt.apply {s u : State} {x : Fin 84} {y : Fin 6} {e f : Effect}
    (h : MirrorsAt (cursorIndex x y) e f) (hx : s.panel.px = some x) (hy : s.panel.py = some y)
    (hsame : u.fb = s.panel.pram) : (f.apply u).fb = (e.apply s).panel.pram := by
  obtain ⟨pieces, hevents, hruns⟩ := h
  obtain ⟨x', y', hpanel, -⟩ := dataRun_known s.panel x y hx hy pieces.flatten
  rw [apply_fb, hruns, hsame, apply_panel, hevents, panelReplay_dataBursts, hpanel]

/-- A stretch of direct drawing: a position of the display and the data bursts sent from there. -/
structure PlacedRun where
  /-- the column selected -/
  x : Fin 84
  /-- the page selected -/
  y : Fin 6
  /-- the bytes of each data burst -/
  pieces : List (List Byte)

/-- The transport events of a stretch: `set_position`, then the data bursts (R62, R63, R130). -/
def PlacedRun.events (p : Params) (r : PlacedRun) : List Event :=
  burst .cmd (positionBytes p r.x.val r.y.val) ++ r.pieces.flatMap (burst .data)

/-- The framebuffer run that stores the same bytes from the same position (R66). -/
def PlacedRun.run (r : PlacedRun) : FbIndex × List Byte := (cursorIndex r.x r.y, r.pieces.flatten)

/-- Stretches of direct drawing, at a panel in the basic set, are runs of writes to its RAM (R67, R72). -/
theorem panelReplay_placedRuns (cfg : Config) (dc : Channel) (p : Panel) (hp : p.pext = some false)
    (rs : List PlacedRun) :
    (panelReplay cfg.toParams dc p (rs.flatMap (PlacedRun.events cfg.toParams))).pram =
      writeRuns (rs.map PlacedRun.run) p.pram := by
  induction rs generalizing dc p with
  | nil => rfl
  | cons r rs ih =>
    obtain ⟨x', y', hpanel⟩ := panelReplay_placed cfg dc p hp r.x r.y r.pieces
    rw [List.flatMap_cons, panelReplay_append, PlacedRun.events, hpanel]
    exact ih _ _ hp

/-- A direct effect that positions itself and its buffer-backed companion: the one draws the stretches
whose bytes the other stores. -/
def MirrorsPlaced (p : Params) (direct buffered : Effect) : Prop :=
  ∃ rs : List PlacedRun, direct.events = rs.flatMap (PlacedRun.events p) ∧
    ∀ m, writeRuns buffered.runs m = writeRuns (rs.map PlacedRun.run) m

theorem mirrorsPlaced_drop (p : Params) (c c' : Cause) (draws draws' : Nat) :
    MirrorsPlaced p (oneDrop c draws) (oneDrop c' draws') := ⟨[], rfl, fun _ => rfl⟩

/-- Effects that mirror each other, on memories of the same contents (R67). -/
theorem MirrorsPlaced.apply {s u : State} {e f : Effect} (h : MirrorsPlaced s.cfg.toParams e f)
    (hp : s.panel.pext = some false) (hsame : u.fb = s.panel.pram) :
    (f.apply u).fb = (e.apply s).panel.pram := by
  obtain ⟨rs, hevents, hruns⟩ := h
  rw [apply_fb, hruns, hsame, apply_panel, hevents, panelReplay_placedRuns s.cfg s.dc s.panel hp]

/-- CLRLINE and CLRLINE.B: the same page of zeros, or a drop in both (R160, R161). -/
theorem clrline_mirrors (p : Params) (fb fb' : Memory) (draws draws' : Nat) (line : Byte) :
    ∃ e f, effectOf p fb draws (.clrline line) = some e ∧ effectOf p fb' draws' (.clrlineB line) = some f ∧
      MirrorsPlaced p e f := by
  by_cases hline : line.toNat ≤ 5
  · obtain ⟨start, hstart, hval⟩ := lineStart_of_le hline
    have hindex : start = cursorIndex 0 ⟨line.toNat, by omega⟩ := Fin.ext hval
    simp only [effectOf, hstart, Option.some.injEq, exists_and_left, exists_eq_left']
    refine ⟨[⟨0, ⟨line.toNat, by omega⟩, [blanks 84]⟩, ⟨0, ⟨line.toNat, by omega⟩, []⟩], ?_,
      fun m => ?_⟩
    · simp [Effect.events, PlacedRun.events]
    · simp [writeRuns, PlacedRun.run, hindex]
  · have hnone := lineStart_none (Nat.not_le.1 hline)
    simp only [effectOf, hnone, Option.some.injEq, exists_and_left, exists_eq_left']
    exact mirrorsPlaced_drop _ _ _ _ _

/-- CLRALL and CLRALL.B: the same 504 zeros from the first index (R162, R163). -/
theorem clrall_mirrors (p : Params) (fb fb' : Memory) (draws draws' : Nat) :
    ∃ e f, effectOf p fb draws .clrall = some e ∧ effectOf p fb' draws' .clrallB = some f ∧
      MirrorsPlaced p e f := by
  refine ⟨_, _, rfl, rfl, [⟨0, 0, [blanks 504]⟩], ?_, fun m => ?_⟩
  · simp [Effect.events, PlacedRun.events]
  · simp [writeRuns, PlacedRun.run, cursorIndex]

/-- One pass of a big string, from a position of the display (R173). -/
def bigPass (t : BigTables) (half : Nat) (text : List Byte) (x : Fin 84) (y : Fin 6) : PlacedRun :=
  ⟨x, y, text.map (fun c => (glyphBig t c half).getD [])⟩

/-- WBIGSTR and WBIGSTR.B where both rows are pages of the buffer: the same two passes (R173, R174), or the
drop of R175 in both. -/
theorem wbigstr_mirrors (p : Params) (fb fb' : Memory) (draws draws' : Nat) {x y : Byte} (text : List Byte)
    (hx : x.toNat ≤ 83) (hy : y.toNat ≤ 4) :
    ∃ e f, effectOf p fb draws (.wbigstr x y text) = some e ∧
      effectOf p fb' draws' (.wbigstrB x y text) = some f ∧ MirrorsPlaced p e f := by
  cases hbig : p.big with
  | none =>
    simp only [effectOf, hbig, Option.some.injEq, exists_and_left, exists_eq_left']
    exact mirrorsPlaced_drop _ _ _ _ _
  | some t =>
    have hstarts : bigBufStarts x y = some
        (cursorIndex ⟨x.toNat, by omega⟩ ⟨y.toNat, by omega⟩,
          cursorIndex ⟨x.toNat, by omega⟩ ⟨y.toNat + 1, by omega⟩) := dif_pos ⟨hx, hy⟩
    simp only [effectOf, hbig, hstarts, Option.some.injEq, exists_and_left, exists_eq_left']
    refine ⟨[bigPass t (topHalf t) text ⟨x.toNat, by omega⟩ ⟨y.toNat, by omega⟩,
      bigPass t (bottomHalf t) text ⟨x.toNat, by omega⟩ ⟨y.toNat + 1, by omega⟩], ?_, fun m => ?_⟩
    · simp [Effect.events, PlacedRun.events, bigPass, List.flatMap_map]
    · simp [writeRuns, PlacedRun.run, bigPass, bigColumnsOf, List.flatMap_def]

/-- The direct commands that position themselves and their companions always run, and mirror (R93). -/
theorem companionPlaced_mirrors (p : Params) (fb fb' : Memory) (draws draws' : Nat) {i j : Instr}
    (hj : companionPlaced i = some j) :
    ∃ e f, effectOf p fb draws i = some e ∧ effectOf p fb' draws' j = some f ∧ MirrorsPlaced p e f := by
  cases i with
  | clrline line =>
    cases hj
    exact clrline_mirrors p fb fb' draws draws' line
  | clrall =>
    cases hj
    exact clrall_mirrors p fb fb' draws draws'
  | wbigstr x y text =>
    simp only [companionPlaced] at hj
    split at hj
    · next hplace =>
      cases hj
      exact wbigstr_mirrors p fb fb' draws draws' text hplace.1 hplace.2
    · cases hj
  | _ => cases hj

/-- Settles O48: each of the nine pairs has effects that mirror each other, at the cursor's index or at the
positions the direct command selects. -/
theorem bufferedDrawingMirrorsDirectDrawing : Obligations.BufferedDrawingMirrorsDirectDrawing := by
  constructor
  · intro s u t i j col page x y hcfg hx hy hcol hpage hsame hj hexec
    obtain ⟨e, he, rfl⟩ := exec_next hexec
    obtain ⟨bp, hbp, hval⟩ := bufStart_of_le (col := col) (page := page) (by omega) (by omega)
    have hindex : bp = cursorIndex x y := Fin.ext (by rw [hval, hcol, hpage]; rfl)
    obtain ⟨f, hf, hmirror⟩ := companionAt_mirrors (fb' := u.fb) (draws' := u.draws) hbp hj he
    rw [← hcfg] at hf
    exact ⟨f.apply u, exec_of_effect hf, (hindex ▸ hmirror).apply hx hy hsame⟩
  · intro s u i j hcfg hp hsame hj
    obtain ⟨e, f, he, hf, hmirror⟩ :=
      companionPlaced_mirrors s.cfg.toParams s.fb u.fb s.draws u.draws hj
    rw [← hcfg] at hf
    exact ⟨e.apply s, f.apply u, exec_of_effect he, exec_of_effect hf, hmirror.apply hp hsame⟩

end Sys2Proof.Machine

/-! ### Proofs of the encoding family (spec/30_encoding.md) -/

namespace Sys2Proof

/-! #### From a command to its bytes and back -/

/-- A text and its terminator, in a format that ends in a text (R96, R97). -/
theorem formatS0_text (mk : List Byte → Instr) {text : List Byte} (rest : List Byte)
    (h : textOk text = true) : formatS0 mk (text ++ [strTerm] ++ rest) = .instr (mk text) rest := by
  simp only [formatS0, List.append_assoc, List.singleton_append, splitText_append text rest h]

/-- Settles O1: a command without a text is read operand by operand, and one with a text ends at the
terminator, which the text does not hold. -/
theorem decodeOfEncodeIsTheCommand : Obligations.DecodeOfEncodeIsTheCommand := by
  intro i rest hi
  cases i with
  | wstr text => exact formatS0_text .wstr rest hi
  | wbigstr x y text => exact formatS0_text (.wbigstr x y) rest hi
  | wstrB col page text => exact formatS0_text (.wstrB col page) rest hi
  | wbigstrB x y text => exact formatS0_text (.wbigstrB x y) rest hi
  | _ => rfl

/-- What the decoder found after an opcode is sound: a command it found is well-formed, and the opcode and
the bytes after it are that command's encoding and what is left over (R92, R96, R97). -/
def SoundDecode (op : Byte) (bytes : List Byte) (d : Decoded) : Prop :=
  ∀ i rest, d = .instr i rest → i.wellFormed = true ∧ op :: bytes = encode i ++ rest

section
variable {op : Byte} (bytes : List Byte)

theorem soundDecode_instr {i : Instr} (h : i.wellFormed = true ∧ encode i = [op]) :
    SoundDecode op bytes (.instr i bytes) := by
  rintro _ _ ⟨⟩
  exact ⟨h.1, by rw [h.2]; rfl⟩

theorem soundDecode_format1 {mk : Byte → Instr}
    (h : ∀ a, (mk a).wellFormed = true ∧ encode (mk a) = [op, a]) :
    SoundDecode op bytes (format1 mk bytes) := by
  intro i rest hd
  unfold format1 at hd
  split at hd <;> cases hd
  exact ⟨(h _).1, by rw [(h _).2]; rfl⟩

theorem soundDecode_format2 {mk : Byte → Byte → Instr}
    (h : ∀ a b, (mk a b).wellFormed = true ∧ encode (mk a b) = [op, a, b]) :
    SoundDecode op bytes (format2 mk bytes) := by
  intro i rest hd
  unfold format2 at hd
  split at hd <;> cases hd
  exact ⟨(h _ _).1, by rw [(h _ _).2]; rfl⟩

theorem soundDecode_format3 {mk : Byte → Byte → Byte → Instr}
    (h : ∀ a b c, (mk a b c).wellFormed = true ∧ encode (mk a b c) = [op, a, b, c]) :
    SoundDecode op bytes (format3 mk bytes) := by
  intro i rest hd
  unfold format3 at hd
  split at hd <;> cases hd
  exact ⟨(h _ _ _).1, by rw [(h _ _ _).2]; rfl⟩

theorem soundDecode_format4 {mk : Byte → Byte → Byte → Byte → Instr}
    (h : ∀ a b c d, (mk a b c d).wellFormed = true ∧ encode (mk a b c d) = [op, a, b, c, d]) :
    SoundDecode op bytes (format4 mk bytes) := by
  intro i rest hd
  unfold format4 at hd
  split at hd <;> cases hd
  exact ⟨(h _ _ _ _).1, by rw [(h _ _ _ _).2]; rfl⟩

theorem soundDecode_format5 {mk : Byte → Byte → Byte → Byte → Byte → Instr}
    (h : ∀ a b c d e, (mk a b c d e).wellFormed = true ∧ encode (mk a b c d e) = [op, a, b, c, d, e]) :
    SoundDecode op bytes (format5 mk bytes) := by
  intro i rest hd
  unfold format5 at hd
  split at hd <;> cases hd
  exact ⟨(h _ _ _ _ _).1, by rw [(h _ _ _ _ _).2]; rfl⟩

/-- A text read by `formatS0` holds no terminator, and the terminator stands after it (R96). -/
theorem formatS0_instr {mk : List Byte → Instr} {i : Instr} {rest : List Byte}
    (hd : formatS0 mk bytes = .instr i rest) :
    ∃ text, i = mk text ∧ textOk text = true ∧ bytes = text ++ [strTerm] ++ rest := by
  unfold formatS0 at hd
  split at hd <;> cases hd
  next text hsplit =>
    obtain ⟨hok, hbytes⟩ := splitText_some hsplit
    exact ⟨text, rfl, hok, by simpa using hbytes⟩

theorem soundDecode_formatS0 {mk : List Byte → Instr}
    (h : ∀ text, (mk text).wellFormed = textOk text ∧ encode (mk text) = op :: (text ++ [strTerm])) :
    SoundDecode op bytes (formatS0 mk bytes) := by
  intro i rest hd
  obtain ⟨text, rfl, hok, rfl⟩ := formatS0_instr bytes hd
  exact ⟨(h text).1.trans hok, by rw [(h text).2]; rfl⟩

theorem soundDecode_formatS2 {mk : Byte → Byte → List Byte → Instr}
    (h : ∀ a b text, (mk a b text).wellFormed = textOk text ∧
      encode (mk a b text) = op :: a :: b :: (text ++ [strTerm])) :
    SoundDecode op bytes (formatS2 mk bytes) := by
  intro i rest hd
  unfold formatS2 at hd
  split at hd
  · next a b bytes =>
    obtain ⟨text, rfl, hok, rfl⟩ := formatS0_instr bytes hd
    exact ⟨(h a b text).1.trans hok, by rw [(h a b text).2]; rfl⟩
  · cases hd

end

/-- Row by row of the opcode map: the command a row gives is spelled by that row's opcode and format
(R92, R97). -/
theorem decodeOp_sound (op : Byte) (bytes : List Byte) : SoundDecode op bytes (decodeOp op bytes) := by
  unfold decodeOp
  split
  case h_1 | h_11 | h_12 | h_22 => exact soundDecode_instr bytes ⟨rfl, rfl⟩
  case h_4 | h_5 | h_7 | h_8 | h_10 | h_21 => exact soundDecode_format1 bytes fun _ => ⟨rfl, rfl⟩
  case h_2 | h_3 | h_13 | h_15 => exact soundDecode_format2 bytes fun _ _ => ⟨rfl, rfl⟩
  case h_9 | h_16 | h_18 | h_19 => exact soundDecode_format3 bytes fun _ _ _ => ⟨rfl, rfl⟩
  case h_23 => exact soundDecode_format4 bytes fun _ _ _ _ => ⟨rfl, rfl⟩
  case h_20 => exact soundDecode_format5 bytes fun _ _ _ _ _ => ⟨rfl, rfl⟩
  case h_6 => exact soundDecode_formatS0 bytes fun _ => ⟨rfl, rfl⟩
  case h_14 | h_17 | h_24 => exact soundDecode_formatS2 bytes fun _ _ _ => ⟨rfl, rfl⟩
  case h_25 =>
    intro i rest h
    cases h

/-- Settles O2: the decoder finds nothing in no bytes, and what it finds after an opcode is sound. -/
theorem decodedBytesAreAnEncoding : Obligations.DecodedBytesAreAnEncoding := by
  intro bytes rest i h
  cases bytes with
  | nil => cases h
  | cons op bytes => exact decodeOp_sound op bytes i rest h

/-- Settles O4: each word, decoded. -/
theorem specWordsDecode : Obligations.SpecWordsDecode := by
  unfold Obligations.SpecWordsDecode
  decide

end Sys2Proof

namespace Sys2Proof.Machine

/-! #### One step, by what the decoder finds at the port -/

theorem step_of_busy {s : State} (hbusy : s.busy = true) : step s = .next s := by
  rw [step, if_pos hbusy]

section
variable {s : State} (hbusy : s.busy = false)
include hbusy

theorem step_of_instr {i : Instr} {rest : List Byte} (h : fetch s = .instr i rest) :
    step s = completeOutcome (exec i (acceptCommand rest s)) := by
  simp [step, hbusy, h]

theorem step_of_reserved {op : Byte} {rest : List Byte} (h : fetch s = .reserved op rest) :
    step s = .next (runReserved rest s) := by
  simp [step, hbusy, h]

theorem step_of_incomplete (h : fetch s = .incomplete) : step s = .next (holdPartial s) := by
  simp [step, hbusy, h]

end

/-- Settles O7: by the first branch of the step. -/
theorem busyBlockAcceptsNoByte : Obligations.BusyBlockAcceptsNoByte := fun _ => step_of_busy

/-- Settles O5: the state the command runs in is the one `acceptCommand` makes, and `completeOutcome` is
the fall of BUSY. -/
theorem stepRunsTheDecodedCommand : Obligations.StepRunsTheDecodedCommand := by
  intro s i rest hbusy h
  rw [step_of_instr hbusy h]
  rfl

/-! #### Reserved opcodes -/

/-- An opcode of no row of the opcode map is found reserved (R98). -/
theorem decodeOp_reserved {op : Byte} (bytes : List Byte)
    (h : op ∉ [0x01#8, 0x02#8, 0x03#8, 0x04#8, 0x10#8, 0x11#8, 0x12#8, 0x13#8, 0x14#8, 0x15#8, 0x16#8, 0x17#8,
      0x18#8, 0x19#8, 0x1A#8, 0x90#8, 0x91#8, 0x92#8, 0x93#8, 0x94#8, 0x95#8, 0x96#8, 0x98#8, 0x99#8]) :
    decodeOp op bytes = .reserved op bytes := by
  unfold decodeOp
  split
  case h_25 => rfl
  all_goals exact absurd (by decide) h

/-- Settles O3: the step accepts the opcode byte and drops once. -/
theorem reservedOpcodeIsOneByteDrop : Obligations.ReservedOpcodeIsOneByteDrop := by
  intro s op rest hbusy hport hop
  have hfetch : fetch s = .reserved op rest := by
    rw [fetch, portBytes, hport]
    exact decodeOp_reserved rest hop
  refine ⟨runReserved rest s, step_of_reserved hbusy hfetch, drop_drops .unknownOp s, ?_, fun _ => rfl,
    rfl, rfl, rfl, rfl, rfl, rfl⟩
  exact ⟨rfl, rfl, rfl, rfl, rfl⟩

/-! #### Partial commands -/

/-- Settles O60: a command or a reserved opcode leaves the decoder idle, and only bytes that decode to
nothing yet are held. -/
theorem stepKeepsDecoderPartial : Obligations.StepKeepsDecoderPartial := by
  intro s t hs h
  obtain ⟨-, rfl⟩ | ⟨-, i, rest, e, -, -, rfl⟩ | ⟨-, op, rest, -, rfl⟩ | ⟨-, hfetch, rfl⟩ := step_cases h
  · exact hs
  · simp [DecoderPartial]
  · exact decode_nil
  · exact hfetch

/-- A step of a block that is not busy does not tell the bytes held from the bytes offered: where the bytes
at the port stand makes no difference (R90, R101). -/
theorem step_of_same_portBytes {s : State} {held hostIn : List Byte} (hbusy : s.busy = false)
    (hport : held ++ hostIn = portBytes s) : step { s with held := held, hostIn := hostIn } = step s := by
  have hfetch : fetch { s with held := held, hostIn := hostIn } = fetch s := congrArg decode hport
  cases hf : fetch s with
  | instr i rest =>
    rw [step_of_instr hbusy hf]
    exact step_of_instr (s := { s with held := held, hostIn := hostIn }) hbusy (hfetch.trans hf)
  | reserved op rest =>
    rw [step_of_reserved hbusy hf]
    exact step_of_reserved (s := { s with held := held, hostIn := hostIn }) hbusy (hfetch.trans hf)
  | incomplete =>
    rw [step_of_incomplete hbusy hf, holdPartial, ← hport]
    exact step_of_incomplete (s := { s with held := held, hostIn := hostIn }) hbusy (hfetch.trans hf)

/-- A state that a step does not change is where any number of steps ends. -/
theorem run_of_step_self {s : State} (h : step s = .next s) (n : Nat) : Host.Core.run core n s = .next s := by
  have hstep : core.step s = .next s := h
  induction n with
  | zero => rfl
  | succ n ih => simp only [Host.Core.run, hstep, ih]

/-- Any further step from a partial command changes nothing (R101). -/
theorem step_holdPartial {s : State} (hbusy : s.busy = false) (h : fetch s = .incomplete) :
    step (holdPartial s) = .next (holdPartial s) :=
  (step_of_same_portBytes hbusy (List.append_nil _)).trans (step_of_incomplete hbusy h)

/-- However many steps are taken, a partial command is only held (R101). -/
theorem run_of_incomplete {s : State} (hbusy : s.busy = false) (h : fetch s = .incomplete) (n : Nat) :
    Host.Core.run core (n + 1) s = .next (holdPartial s) := by
  have hstep : core.step s = .next (holdPartial s) := step_of_incomplete hbusy h
  simp only [Host.Core.run, hstep]
  exact run_of_step_self (step_holdPartial hbusy h) n

/-- Settles O6: the bytes are held, and where they stand makes no difference to the step that gets more. -/
theorem partialCommandHasNoEffect : Obligations.PartialCommandHasNoEffect := by
  intro s hbusy h
  refine ⟨run_of_incomplete hbusy h, fun more => ?_⟩
  exact step_of_same_portBytes (s := hostOffer more s) hbusy (by simp [portBytes])

/-! #### Strings (R104, R143) -/

/-- A character drawn directly leaves the drawing directed at the panel. -/
theorem putChar_panel (s : State) (code : Byte) :
    putChar ⟨s, .panel⟩ code = ⟨drawDirect (fun d => putChar d code) s, .panel⟩ := by
  simp only [drawDirect, putChar]
  cases glyphChar s.cfg.toParams code <;> rfl

/-- A string drawn directly: its first character, then the rest of it (R143). -/
theorem drawDirect_putString_cons (code : Byte) (text : List Byte) (s : State) :
    drawDirect (putString (code :: text)) s =
      drawDirect (putString text) (drawDirect (fun d => putChar d code) s) := by
  rw [drawDirect, putString, List.foldl_cons, putChar_panel]
  rfl

/-- Settles O23: a string is drawn character by character, and each leaves the panel as the sink. -/
theorem stringIsTheSequenceOfItsCharacters : Obligations.StringIsTheSequenceOfItsCharacters := by
  intro s code text
  exact ⟨rfl, congrArg Host.Outcome.next (drawDirect_putString_cons code text s)⟩

end Sys2Proof.Machine

/-! ### Proofs of the init family (spec/40_init.md) -/

namespace Sys2Proof.Machine

/-! #### Command and data streams (R61) -/

theorem commandStream_append (dc : Channel) (xs ys : List Event) :
    commandStream dc (xs ++ ys) = commandStream dc xs ++ commandStream (xs.foldl channelAfter dc) ys := by
  simp only [commandStream, wireStream_append, channelStream_append]

theorem dataStream_append (dc : Channel) (xs ys : List Event) :
    dataStream dc (xs ++ ys) = dataStream dc xs ++ dataStream (xs.foldl channelAfter dc) ys := by
  simp only [dataStream, wireStream_append, channelStream_append]

@[simp] theorem commandStream_burst_cmd (dc : Channel) (bytes : List Byte) :
    commandStream dc (burst .cmd bytes) = bytes := by
  rw [commandStream, wireStream_burst, channelStream_map_same]

@[simp] theorem commandStream_burst_data (dc : Channel) (bytes : List Byte) :
    commandStream dc (burst .data bytes) = [] := by
  rw [commandStream, wireStream_burst, channelStream_map_other (by decide)]

@[simp] theorem dataStream_burst_data (dc : Channel) (bytes : List Byte) :
    dataStream dc (burst .data bytes) = bytes := by
  rw [dataStream, wireStream_burst, channelStream_map_same]

@[simp] theorem dataStream_burst_cmd (dc : Channel) (bytes : List Byte) :
    dataStream dc (burst .cmd bytes) = [] := by
  rw [dataStream, wireStream_burst, channelStream_map_other (by decide)]

/-- The reset pulse puts no byte on the wire (R61, R122). -/
theorem wireStream_pulseEvents (dc : Channel) (params : Params) : wireStream dc (pulseEvents params) = [] := by
  unfold pulseEvents
  cases params.resetPulse <;> rfl

@[simp] theorem commandStream_pulseEvents (dc : Channel) (params : Params) :
    commandStream dc (pulseEvents params) = [] := by
  rw [commandStream, wireStream_pulseEvents]
  rfl

@[simp] theorem dataStream_pulseEvents (dc : Channel) (params : Params) :
    dataStream dc (pulseEvents params) = [] := by
  rw [dataStream, wireStream_pulseEvents]
  rfl

/-! #### The events of INIT (R120) -/

/-- The selects of position (0, 0), in the spec's own terms (R120, R130). -/
theorem positionBytes_origin (cfg : Config) :
    positionBytes cfg.toParams 0 0 = [cfg.pageSelBase ||| 0x00#8, cfg.colSelBase ||| 0x00#8] :=
  positionBytes_home cfg 0x00#8 (by decide)

/-- The ten command bytes of INIT (R120). -/
theorem commandStream_initEvents (dc : Channel) (cfg : Config) :
    commandStream dc (initEvents cfg.toParams) =
      [cfg.funcExt, cfg.bias, cfg.vop, cfg.funcBasic, cfg.dispAllOn,
        cfg.pageSelBase ||| 0x00#8, cfg.colSelBase ||| 0x00#8, cfg.dispNormal,
        cfg.pageSelBase ||| 0x00#8, cfg.colSelBase ||| 0x00#8] := by
  simp only [initEvents, commandStream_append, commandStream_pulseEvents, commandStream_burst_cmd,
    commandStream_burst_data, positionBytes_origin]
  rfl

theorem dataStream_initEvents (dc : Channel) (params : Params) :
    dataStream dc (initEvents params) = blanks 504 := by
  simp [initEvents, dataStream_append]

/-! #### Every command but INIT leaves `INITED` alone, and none tests it (R124) -/

/-- An effect from a state with another `INITED` differs in `INITED` alone. -/
theorem apply_withInited (e : Effect) (s : State) (b : Bool) :
    e.apply { s with inited := b } = { e.apply s with inited := b || e.sets } := by
  have h := dropTimes_update e.cause e.drops (txs e.events s) s.fb b
  rw [Effect.apply, show txs e.events { s with inited := b } =
    { txs e.events s with fb := s.fb, inited := b } from rfl, h]
  rfl

/-- A step's command keeps `INITED`, and nothing else in a step touches it (R124). -/
theorem step_keeps_inited {s t : State} (h : step s = .next t) (hs : s.inited = true) : t.inited = true := by
  obtain ⟨-, rfl⟩ | ⟨-, i, rest, e, -, -, rfl⟩ | ⟨-, op, rest, -, rfl⟩ | ⟨-, -, rfl⟩ := step_cases h
  · exact hs
  · rw [completeCommand_inited, apply_inited, acceptCommand_inited, hs, Bool.true_or]
  · exact hs
  · exact hs

/-- With `INITED` the other way a command does the same; its effect says whether it sets the bit (R124). -/
theorem exec_withInited (i : Instr) (s : State) (b : Bool) :
    exec i { s with inited := b } = match exec i s with
      | .next t => .next { t with inited := if i = .init then true else b }
      | .fault r => .fault r
      | .refused r => .refused r := by
  rw [exec_eq_effect, exec_eq_effect]
  cases he : effectOf s.cfg.toParams s.fb s.draws i with
  | none => rfl
  | some e =>
    obtain ⟨-, hsets, -, -, -⟩ := effectOf_frame he
    have hbit : (b || e.sets) = if i = .init then true else b := by
      by_cases hi : i = .init <;> simp [hsets, hi]
    simp only [apply_withInited, hbit]

/-! #### The reset pulse (R122) -/

/-- The events of a command that runs: first the pulse, if it is INIT, then bursts alone. -/
theorem effectOf_trace {i : Instr} {s : State} {e : Effect}
    (he : effectOf s.cfg.toParams s.fb s.draws i = some e) :
    (e.apply s).trace = s.trace ++ ((if i = .init then pulseEvents s.cfg.toParams else []) ++
      e.bursts.flatMap (fun cb => burst cb.1 cb.2)) := by
  obtain ⟨hpulse, -, -, -, -⟩ := effectOf_frame he
  rw [apply_trace, Effect.events, hpulse]

/-! #### The obligations -/

/-- Settles O57: the command of a step keeps the block prepared (`exec_keeps_initedPrepared`), and nothing
else in a step touches the framebuffer, the panel or `INITED`. -/
theorem stepKeepsInitedPrepared : Obligations.StepKeepsInitedPrepared := by
  intro s t hs h
  obtain ⟨-, rfl⟩ | ⟨-, i, rest, e, -, he, rfl⟩ | ⟨-, op, rest, -, rfl⟩ | ⟨-, -, rfl⟩ := step_cases h
  · exact hs
  · have hexec : exec i (acceptCommand rest s) = .next (e.apply (acceptCommand rest s)) := exec_of_effect he
    have hkept : InitedPrepared (e.apply (acceptCommand rest s)) := exec_keeps_initedPrepared hexec hs
    exact hkept
  · exact hs
  · exact hs

/-- Settles O9: INIT is its events, the cleared framebuffer and `INITED` (`exec_init_eq`), and the streams
are those of its bursts. -/
theorem initRunsTheBringUp : Obligations.InitRunsTheBringUp := by
  refine ⟨rfl, fun s => ?_⟩
  intro pulse home events
  have hevents : initEvents s.cfg.toParams = events := by
    simp only [initEvents, positionBytes_origin]
    rfl
  rw [← hevents]
  obtain ⟨htransmits, -, -, hdiag, -⟩ :=
    txs_onlyTransmits (initEvents s.cfg.toParams) (fbWrite 0 (blanks 504) s)
  exact ⟨_, exec_init_eq s, htransmits, Memory.read_writeRun_zeros s.fb, rfl, hdiag, rfl, rfl, rfl, rfl, rfl,
    commandStream_initEvents s.dc s.cfg, dataStream_initEvents s.dc s.cfg.toParams⟩

/-- Settles O10: the framebuffer is cleared as in O9, and the panel is as `init_panel` says, whatever it
was before. -/
theorem initPreparesThePanel : Obligations.InitPreparesThePanel := by
  intro s
  obtain ⟨m, hpanel, hzero⟩ := init_panel s.cfg s.dc s.panel
  have hafter : (txs (initEvents s.cfg.toParams) (fbWrite 0 (blanks 504) s)).panel =
      ⟨some 0, some 0, m, some false⟩ := (txs_panel _ _).trans hpanel
  refine ⟨_, exec_init_eq s, fun a ha => ⟨Memory.read_writeRun_zeros s.fb a ha, ?_⟩,
    congrArg Panel.pext hafter, congrArg Panel.px hafter, congrArg Panel.py hafter, rfl, rfl, rfl⟩
  rw [hafter]
  exact hzero a ha

/-- Settles O11: INIT sets the bit, a step keeps it, and a command's effect does not depend on it. -/
theorem initedIsSetByInitAndNeverTested : Obligations.InitedIsSetByInitAndNeverTested :=
  ⟨fun s => ⟨_, exec_init_eq s, rfl⟩, fun _ _ => step_keeps_inited, exec_withInited⟩

/-- Settles O12: only INIT's effect has a pulse, it comes first, and bursts carry none of the three events
(`bursts_noPulse`). -/
theorem onlyInitPulsesTheResetLine : Obligations.OnlyInitPulsesTheResetLine := by
  constructor
  · intro i s t hi h
    obtain ⟨e, he, rfl⟩ := exec_next h
    have htrace := effectOf_trace he
    rw [if_neg hi, List.nil_append] at htrace
    exact ⟨_, htrace, bursts_noPulse e.bursts⟩
  · intro s
    obtain ⟨e, he⟩ : ∃ e, effectOf s.cfg.toParams s.fb s.draws .init = some e := ⟨_, rfl⟩
    have htrace := effectOf_trace he
    rw [if_pos rfl] at htrace
    exact ⟨_, _, exec_of_effect he, htrace, bursts_noPulse e.bursts⟩

end Sys2Proof.Machine

/-! ### Proofs of the addressing family (spec/41_addressing.md) -/

namespace Sys2Proof.Machine

/-! #### The selects sent, in the spec's own terms -/

/-- The page select of a byte operand (R130, R134). -/
theorem pageSelect_byte (params : Params) (page : Byte) :
    pageSelect params page.toNat = params.pageSelBase ||| (page &&& 0x07#8) := by
  rw [pageSelect, BitVec.ofNat_toNat, BitVec.setWidth_eq]

theorem cellOk_iff (col row : Byte) : cellOk col row = true ↔ row.toNat ≤ 5 ∧ col.toNat ≤ 13 := by
  simp [cellOk]

/-- On the grid both coordinates of a cell are unchanged by the masks (R132). -/
theorem positionBytes_cell (cfg : Config) {col row : Byte} (hrow : row.toNat ≤ 5) (hcol : col.toNat ≤ 13) :
    positionBytes cfg.toParams (cellColumn col) row.toNat =
      [cfg.pageSelBase ||| row, cfg.colSelBase ||| BitVec.ofNat 8 (col.toNat * 6)] := by
  have hpage := base_page cfg row.toNat (by omega)
  rw [BitVec.ofNat_toNat, BitVec.setWidth_eq] at hpage
  rw [positionBytes, cellColumn, ← hpage, ← base_col cfg (col.toNat * 6) (by omega)]

/-! #### SETCELL, on the grid and off it -/

theorem exec_setcell_on {col row : Byte} (h : cellOk col row = true) (s : State) :
    exec (.setcell col row) s = .next (setPosition (cellColumn col) row.toNat s) :=
  congrArg Host.Outcome.next (if_pos h)

theorem exec_setcell_off {col row : Byte} (h : ¬ cellOk col row = true) (s : State) :
    exec (.setcell col row) s = .next (drop .badCell s) :=
  congrArg Host.Outcome.next (if_neg h)

/-! #### One page select at the panel -/

/-- A page select alone at a panel in the basic set (R71, R134). -/
theorem panelReplay_pageSelect (cfg : Config) (dc : Channel) (p : Panel) (hp : p.pext = some false)
    (page : Nat) :
    panelReplay cfg.toParams dc p (burst .cmd [pageSelect cfg.toParams page]) = p.selectPage (page % 8) := by
  rw [panelReplay_burst]
  exact command_pageSelect cfg p hp page

/-! #### The obligations -/

/-- Settles O13: SETPOS is `set_position` of its operands, and a position off the display after masking
loses the cursor (`position_unknown`). -/
theorem setposSendsBothMaskedSelects : Obligations.SetposSendsBothMaskedSelects := by
  intro s col page
  refine ⟨rfl, setPosition col.toNat page.toNat s, rfl, ?_, ?_⟩
  · rw [← positionBytes_bytes]
    exact txs_onlyTransmits _ s
  · intro hp hoff
    rw [setPosition_eq_txs, txs_panel, panelReplay_position s.cfg s.dc s.panel hp]
    exact position_unknown s.panel _ _ hoff

/-- Settles O15: on the grid SETCELL is `set_position` of the cell's first column, off it one drop. -/
theorem setcellPositionsOrDrops : Obligations.SetcellPositionsOrDrops := by
  intro s col row
  refine ⟨rfl, ?_, ?_⟩
  · intro hrow hcol
    refine ⟨_, exec_setcell_on ((cellOk_iff col row).2 ⟨hrow, hcol⟩) s, ?_⟩
    rw [← positionBytes_cell s.cfg hrow hcol]
    exact txs_onlyTransmits _ s
  · intro hoff
    have hbad : ¬ cellOk col row = true := by
      rw [cellOk_iff]
      omega
    exact ⟨_, exec_setcell_off hbad s, drop_onlyDrops .badCell s⟩

/-- Settles O16: SETPAGE sends the page select alone, and the panel reads its masked field. -/
theorem setpageSendsThePageSelectOnly : Obligations.SetpageSendsThePageSelectOnly := by
  intro s page
  refine ⟨rfl, sendCmd [pageSelect s.cfg.toParams page.toNat] s, rfl, ?_, ?_⟩
  · rw [← pageSelect_byte]
    exact txs_onlyTransmits _ s
  · intro hp
    rw [sendCmd_eq_txs, txs_panel, panelReplay_pageSelect s.cfg s.dc s.panel hp]
    constructor
    · intro y hy
      rw [hy, selectPage_fin]
    · intro hoff
      rw [selectPage_off _ hoff]
      exact cursor_eq_none (.inl rfl)

end Sys2Proof.Machine

/-! ### Proofs of the glyph rasterizer family (spec/42_glyph_rasterizer.md) -/

namespace Sys2Proof.Machine

/-! #### Transport or writes together with drops -/

/-- Transport events among drops with one cause: everything that changes (R143, R192). -/
theorem txs_dropTimes_changes (es : List Event) (c : Cause) (n : Nat) (s : State) :
    Transmits s (txs es (dropTimes c n s)) es ∧ Drops s (txs es (dropTimes c n s)) c n ∧
    SameBuffer s (txs es (dropTimes c n s)) ∧ SameControl s (txs es (dropTimes c n s)) ∧
    (txs es (dropTimes c n s)).draws = s.draws := by
  refine ⟨by simp [Transmits], ?_, fun _ => by simp, by simp [SameControl], by simp⟩
  exact dropTimes_drops c n s

/-- A run of framebuffer writes among drops with one cause: everything that changes (R150, R192). -/
theorem fbWrite_dropTimes_changes (bp : FbIndex) (bytes : List Byte) (c : Cause) (n : Nat) (s : State) :
    WritesRun s (fbWrite bp bytes (dropTimes c n s)) bp.val bytes ∧
    Drops s (fbWrite bp bytes (dropTimes c n s)) c n ∧
    SameTransport s (fbWrite bp bytes (dropTimes c n s)) ∧
    SameControl s (fbWrite bp bytes (dropTimes c n s)) ∧
    (fbWrite bp bytes (dropTimes c n s)).draws = s.draws := by
  refine ⟨?_, dropTimes_drops c n s, by simp [SameTransport], by simp [SameControl], by simp⟩
  simpa only [WritesRun, dropTimes_fb] using fbWrite_writesRun bp bytes (dropTimes c n s)

/-! #### Glyphs of drawable codes, and texts of them -/

theorem glyphChar_of_drawable (cfg : Config) {code : Byte} (h : drawable code = true) :
    glyphChar cfg.toParams code = some (fontColumns cfg code.toNat) := by
  rw [glyphChar_eq, if_pos h]

theorem glyphChar_of_undrawable (cfg : Config) {code : Byte} (h : drawable code = false) :
    glyphChar cfg.toParams code = none := by
  rw [glyphChar_eq, h]
  rfl

/-- A text of drawable bytes draws the glyph of each (R155). -/
theorem textColumns_of_drawable (cfg : Config) {text : List Byte} (h : ∀ c ∈ text, drawable c = true) :
    textColumns cfg text = text.flatMap (fun c => fontColumns cfg c.toNat) :=
  List.flatMap_congr fun c hc => if_pos (h c hc)

/-- The data stream of a text drawn directly is its columns (R143, R155). -/
theorem dataStream_textBursts (cfg : Config) (dc : Channel) (text : List Byte) :
    dataStream dc (textBursts cfg text) = textColumns cfg text := by
  rw [dataStream, wireStream_textBursts, channelStream_map_same]

/-- A text drawn directly sends no command byte (R155). -/
theorem commandStream_textBursts (cfg : Config) (dc : Channel) (text : List Byte) :
    commandStream dc (textBursts cfg text) = [] := by
  rw [commandStream, wireStream_textBursts, channelStream_map_other (by decide)]

/-! #### A buffer-backed command off the buffer and on it (R94) -/

/-- Whatever it would draw, at a position out of range it is one drop. -/
theorem drawAt_onlyDrops {col page : Byte} (h : 83 < col.toNat ∨ 5 < page.toNat) (run : Drawing → Drawing)
    (s : State) : OnlyDrops s (drawAt col page run s) .badBufPos := by
  rw [drawAt_none (bufStart_none h)]
  exact drop_onlyDrops .badBufPos s

section
variable {col page : Byte} (hcol : col.toNat ≤ 83) (hpage : page.toNat ≤ 5) {run : Drawing → Drawing}
  {s : State}
include hcol hpage

/-- In range, a run that only writes bytes writes them from `page*84 + col`. -/
theorem drawAt_onlyWrites {bytes : List Byte} (h : ∀ bp, drawBuffered bp run s = fbWrite bp bytes s) :
    OnlyWrites s (drawAt col page run s) (page.toNat * 84 + col.toNat) bytes := by
  obtain ⟨bp, hbp, hval⟩ := bufStart_of_le hcol hpage
  rw [drawAt_some hbp, h bp, ← hval]
  exact fbWrite_onlyWrites bp bytes s

/-- In range, a run that is one drop drops with its own cause. -/
theorem drawAt_onlyDrops_of_run {c : Cause} (h : ∀ bp, drawBuffered bp run s = drop c s) :
    OnlyDrops s (drawAt col page run s) c := by
  obtain ⟨bp, hbp, -⟩ := bufStart_of_le hcol hpage
  rw [drawAt_some hbp, h bp]
  exact drop_onlyDrops c s

end

/-- The two digits of a byte drawn into the buffer: no drop, since both are drawable (R151, R153). -/
theorem drawBuffered_putHex (bp : FbIndex) (value : Byte) (s : State) :
    drawBuffered bp (putHex value) s = fbWrite bp (hexColumns s.cfg value) s := by
  show drawBuffered bp (putString [hexDigit (value.toNat / 16), hexDigit (value.toNat % 16)]) s = _
  rw [drawBuffered_putString, itemBytes_glyphChar, missing_glyphChar, textColumns_hex, undrawable_hex]
  rfl

/-! #### Icons in the table (R144) -/

theorem iconOk_of_lt {cfg : Config} {ordinal : Byte} (h : ordinal.toNat < cfg.nIcons) :
    iconOk cfg.toParams ordinal = true := decide_eq_true h

theorem exec_wicon_inside {s : State} {ordinal : Byte} (h : ordinal.toNat < s.cfg.nIcons) :
    exec (.wicon ordinal) s = .next (txs (burst .data (iconColumns s.cfg ordinal.toNat)) s) :=
  if_pos (iconOk_of_lt h)

theorem exec_wiconB_inside (col page : Byte) {s : State} {ordinal : Byte}
    (h : ordinal.toNat < s.cfg.nIcons) :
    exec (.wiconB col page ordinal) s =
      .next (drawAt col page (emit (iconColumns s.cfg ordinal.toNat)) s) :=
  if_pos (by rw [iconOk_of_lt h, Bool.true_or])

/-! #### The obligations -/

/-- Settles O20: the font has a glyph for the code, or the character is one drop. -/
theorem wcharDrawsOrDrops : Obligations.WcharDrawsOrDrops := by
  intro s code
  constructor
  · intro hlow hhigh
    have hglyph := glyphChar_of_drawable s.cfg (drawable_true hlow hhigh)
    exact ⟨_, congrArg Host.Outcome.next (drawDirect_putChar_ok hglyph), txs_onlyTransmits _ s⟩
  · intro hoff
    have hglyph := glyphChar_of_undrawable s.cfg (drawable_false hoff)
    exact ⟨_, congrArg Host.Outcome.next (drawDirect_putChar_bad hglyph), drop_onlyDrops _ s⟩

/-- Settles O21: WSTR is the bursts of its drawable bytes among the drops of the others (`exec_wstr_eq`). -/
theorem wstrDrawsEachCharacter : Obligations.WstrDrawsEachCharacter :=
  fun s text => ⟨_, exec_wstr_eq text s, txs_dropTimes_changes _ _ _ s⟩

/-- Settles O22: the bursts of WSTR carry the columns of its text, all on the data channel
(`wireStream_textBursts`). -/
theorem wstrRoundTrip : Obligations.WstrRoundTrip := by
  intro s text htext
  have hdrawable : ∀ c ∈ text, drawable c = true := fun c hc =>
    drawable_true (htext c hc).1 (htext c hc).2
  obtain ⟨⟨htrace, -⟩, -⟩ := txs_dropTimes_changes (textBursts s.cfg text) .badChar (undrawable text) s
  refine ⟨_, textBursts s.cfg text, exec_wstr_eq text s, htrace, ?_, commandStream_textBursts s.cfg s.dc text⟩
  rw [dataStream_textBursts, textColumns_of_drawable s.cfg hdrawable]

/-- Settles O24: an ordinal in the table is read and sent. -/
theorem wiconSendsTheBitmap : Obligations.WiconSendsTheBitmap :=
  fun s _ hin => ⟨_, exec_wicon_inside hin, txs_onlyTransmits _ s⟩

/-- Settles O26: both digits are drawable, so that WHEX is two bursts and no drop (`exec_whex_eq`). -/
theorem whexDrawsTwoDigits : Obligations.WhexDrawsTwoDigits :=
  fun s value => ⟨rfl, _, exec_whex_eq value s, txs_onlyTransmits _ s⟩

/-- Settles O27: WBITS sends the glyph that the model computes, which is the bit graph
(`glyphBits_isBitGraph`). -/
theorem wbitsSendsTheBitGraph : Obligations.WbitsSendsTheBitGraph :=
  fun s lo hi dir => ⟨rfl, _, _, rfl, glyphBits_isBitGraph s.cfg lo hi dir, txs_onlyTransmits _ s⟩

/-- Settles O28: the position decides first, then whether the font has a glyph for the code. -/
theorem wcharBWritesTheGlyph : Obligations.WcharBWritesTheGlyph := by
  intro s col page code
  refine ⟨rfl, fun hoff => ⟨_, rfl, drawAt_onlyDrops hoff _ s⟩, ?_, ?_⟩
  · intro hcol hpage hbad
    have hglyph := glyphChar_of_undrawable s.cfg (drawable_false hbad)
    exact ⟨_, rfl, drawAt_onlyDrops_of_run hcol hpage fun bp => drawBuffered_putChar_bad bp hglyph⟩
  · intro hcol hpage hlow hhigh
    have hglyph := glyphChar_of_drawable s.cfg (drawable_true hlow hhigh)
    exact ⟨_, rfl, drawAt_onlyWrites hcol hpage fun bp => drawBuffered_putChar_ok bp hglyph⟩

/-- Settles O29: in range WSTR.B is one run of writes among the drops of the other bytes
(`exec_wstrB_eq`). -/
theorem wstrBWritesTheText : Obligations.WstrBWritesTheText := by
  intro s col page text
  refine ⟨rfl, fun hoff => ⟨_, rfl, drawAt_onlyDrops hoff _ s⟩, ?_⟩
  intro hcol hpage
  obtain ⟨bp, hbp, hval⟩ := bufStart_of_le hcol hpage
  rw [← hval]
  exact ⟨_, exec_wstrB_eq hbp text s, fbWrite_dropTimes_changes bp _ _ _ s⟩

/-- Settles O30: for an ordinal in the table the position alone decides. -/
theorem wiconBWritesTheBitmap : Obligations.WiconBWritesTheBitmap := by
  intro s col page ordinal hin
  have hexec := exec_wiconB_inside col page hin
  refine ⟨fun hoff => ⟨_, hexec, drawAt_onlyDrops hoff _ s⟩, fun hcol hpage => ⟨_, hexec, ?_⟩⟩
  exact drawAt_onlyWrites hcol hpage fun bp => drawBuffered_emit bp _ s

/-- Settles O31: in range WHEX.B writes both digits (`drawBuffered_putHex`). -/
theorem whexBWritesTwoDigits : Obligations.WhexBWritesTwoDigits := by
  intro s col page value
  refine ⟨rfl, fun hoff => ⟨_, rfl, drawAt_onlyDrops hoff _ s⟩, fun hcol hpage => ⟨_, rfl, ?_⟩⟩
  exact drawAt_onlyWrites hcol hpage fun bp => drawBuffered_putHex bp value s

/-- Settles O32: in range WBITS.B writes the glyph that the model computes, which is the bit graph
(`glyphBits_isBitGraph`). -/
theorem wbitsBWritesTheBitGraph : Obligations.WbitsBWritesTheBitGraph := by
  intro s col page lo hi dir
  refine ⟨rfl, fun hoff => ⟨_, rfl, drawAt_onlyDrops hoff _ s⟩, fun hcol hpage =>
    ⟨_, _, rfl, glyphBits_isBitGraph s.cfg lo hi dir, ?_⟩⟩
  exact drawAt_onlyWrites hcol hpage fun bp => drawBuffered_emit bp _ s

end Sys2Proof.Machine

/-! ### Proofs of the clear and diagnostic family (spec/43_clear_and_diag.md) -/

namespace Sys2Proof.Machine

/-! #### Runs of zeros in a memory -/

/-- A run of 84 zeros from the start of a page of the display: that row is zero and the rest as before
(R160, R161). -/
theorem Memory.read_writeRun_zeroRow (m : Memory) {start : FbIndex} {line : Nat}
    (hstart : start.val = line * 84) :
    (∀ a, line * 84 ≤ a → a < line * 84 + 84 → (m.writeRun start (blanks 84)).read a = some 0x00#8) ∧
    (∀ a, a < line * 84 ∨ line * 84 + 84 ≤ a → (m.writeRun start (blanks 84)).read a = m.read a) := by
  constructor
  · intro a hlow hhigh
    obtain ⟨k, rfl⟩ := Nat.exists_eq_add_of_le hlow
    have hk : k < 84 := Nat.add_lt_add_iff_left.1 hhigh
    have hindex : (start.val + k) % 504 = line * 84 + k := by omega
    rw [← hindex]
    exact Memory.read_writeRun_short m start (blanks 84) (by simp) k _ (blanks_getElem? hk)
  · intro a hout
    refine Memory.read_writeRun_other m start (blanks 84) a fun k hk => ?_
    rw [length_blanks] at hk
    omega

/-- The whole memory written with zeros a second time reads as after the first time (R163). -/
theorem Memory.read_writeRun_zeros_twice (m : Memory) (a : Nat) :
    ((m.writeRun 0 (blanks 504)).writeRun 0 (blanks 504)).read a = (m.writeRun 0 (blanks 504)).read a := by
  by_cases ha : a < 504
  · rw [Memory.read_writeRun_zeros _ a ha, Memory.read_writeRun_zeros _ a ha]
  · refine Memory.read_writeRun_other _ 0 (blanks 504) a fun k _ => ?_
    have hin : ((0 : FbIndex).val + k) % 504 < 504 := Nat.mod_lt _ (by decide)
    omega

/-! #### CLRLINE at the panel -/

theorem cursorIndex_home (y : Fin 6) : (cursorIndex 0 y).val = y.val * 84 := by
  simp [cursorIndex]

/-- The events of CLRLINE at a panel in the basic set: the page's row is written with zeros and the cursor
is back at its first column (R71, R72, R160). -/
theorem panelReplay_clrline (cfg : Config) (dc : Channel) (p : Panel) (hp : p.pext = some false)
    (y : Fin 6) :
    panelReplay cfg.toParams dc p (burst .cmd (positionBytes cfg.toParams 0 y.val) ++
        burst .data (blanks 84) ++ burst .cmd (positionBytes cfg.toParams 0 y.val)) =
      { p with px := some 0, py := some y, pram := p.pram.writeRun (cursorIndex 0 y) (blanks 84) } := by
  obtain ⟨x', y', hrow, -⟩ := dataRun_known { p with px := some 0, py := some y } 0 y rfl rfl (blanks 84)
  rw [panelReplay_append, panelReplay_append, panelReplay_home cfg dc p hp, panelReplay_data, hrow]
  exact panelReplay_home cfg _
    { p with px := some x', py := some y', pram := p.pram.writeRun (cursorIndex 0 y) (blanks 84) } hp y

/-! #### CLRALL -/

/-- CLRALL's events, in the spec's own terms (R162). -/
theorem exec_clrall_origin (s : State) :
    exec .clrall s =
      .next (txs (burst .cmd [s.cfg.pageSelBase ||| 0x00#8, s.cfg.colSelBase ||| 0x00#8] ++
        burst .data (blanks 504)) s) := by
  rw [exec_clrall_eq, positionBytes_origin]

/-! #### JUNK -/

/-- The samples are the next draws, in order (R205, log 5). -/
theorem timerSamples_getElem? (draws : Nat) {n k : Nat} (hk : k < n) :
    (timerSamples draws n)[k]? = some (Config.timerSample (draws + k)) := by
  simp [timerSamples, hk]

@[simp] theorem length_timerSamples (draws n : Nat) : (timerSamples draws n).length = n := by
  simp [timerSamples]

/-- Transport events and free draws: everything that changes (log 6). -/
theorem txs_withDraws_changes (es : List Event) (n : Nat) (s : State) :
    Transmits s { txs es s with draws := n } es ∧ SameBuffer s { txs es s with draws := n } ∧
    SameControl s { txs es s with draws := n } ∧ SameDiag s { txs es s with draws := n } := by
  obtain ⟨htransmits, hbuffer, hcontrol, hdiag, -⟩ := txs_onlyTransmits es s
  exact ⟨htransmits, hbuffer, hcontrol, hdiag⟩

/-- JUNK: one data burst of samples, and the draws used up (R164). -/
theorem exec_junk_eq (s : State) :
    exec .junk s =
      .next { txs (burst .data (timerSamples s.draws 504)) s with draws := s.draws + 504 } := rfl

/-! #### The obligations -/

/-- Settles O33: CLRLINE is its three bursts (`exec_clrline_eq`), the panel is as `panelReplay_clrline` says,
and a line off the display is one drop. -/
theorem clrlineClearsOneRow : Obligations.ClrlineClearsOneRow := by
  intro s line
  refine ⟨rfl, fun hline => ⟨_, exec_clrline_eq line s hline, ?_, fun hp => ?_⟩,
    fun hoff => ⟨_, exec_clrline_bad line s hoff, drop_onlyDrops .badLine s⟩⟩
  · rw [positionBytes_home s.cfg line (by omega)]
    exact txs_onlyTransmits _ s
  · have hpanel := panelReplay_clrline s.cfg s.dc s.panel hp ⟨line.toNat, by omega⟩
    obtain ⟨hzero, hrest⟩ := Memory.read_writeRun_zeroRow s.panel.pram
      (cursorIndex_home ⟨line.toNat, by omega⟩)
    rw [txs_panel, hpanel]
    exact ⟨hp, fun y hy => ⟨rfl, congrArg some (Fin.ext hy)⟩, hzero, hrest⟩

/-- Settles O34: on the display CLRLINE.B is one run of zeros over the row (`exec_clrlineB_eq`), off it one
drop. -/
theorem clrlineBZeroesOneRow : Obligations.ClrlineBZeroesOneRow := by
  intro s line
  refine ⟨rfl, fun hline => ?_,
    fun hoff => ⟨_, exec_clrlineB_bad line s hoff, drop_onlyDrops .badLine s⟩⟩
  obtain ⟨start, hstart, hval⟩ := lineStart_of_le hline
  obtain ⟨hzero, hrest⟩ := Memory.read_writeRun_zeroRow s.fb hval
  obtain ⟨-, hframe⟩ := fbWrite_onlyWrites start (blanks 84) s
  exact ⟨_, exec_clrlineB_eq line s start hstart, hzero, hrest, hframe⟩

/-- Settles O36: a run of zeros over the whole framebuffer, and the same run again changes no byte
(`Memory.read_writeRun_zeros_twice`). -/
theorem clrallBZeroesTheFramebuffer : Obligations.ClrallBZeroesTheFramebuffer := by
  refine ⟨rfl, fun s => ?_⟩
  obtain ⟨-, htransport, hcontrol, hdiag, hdraws⟩ := fbWrite_onlyWrites 0 (blanks 504) s
  exact ⟨_, _, exec_clrallB_eq s, Memory.read_writeRun_zeros s.fb, htransport, hcontrol, hdiag, hdraws,
    exec_clrallB_eq _, Memory.read_writeRun_zeros_twice s.fb⟩

/-- Settles O35: CLRALL's events depend on the configuration alone, which the first CLRALL keeps. -/
theorem clrallSendsZeroesOnly : Obligations.ClrallSendsZeroesOnly := by
  intro s
  refine ⟨_, _, exec_clrall_origin s, txs_onlyTransmits _ s, exec_clrall_origin _, ?_⟩
  rw [txs_cfg]
  exact txs_onlyTransmits _ _

/-- Settles O37: JUNK is one data burst of the next 504 draws (`exec_junk_eq`). -/
theorem junkSendsFreeBytes : Obligations.JunkSendsFreeBytes := by
  intro s
  obtain ⟨htransmits, hbuffer, hcontrol, hdiag⟩ :=
    txs_withDraws_changes (burst .data (timerSamples s.draws 504)) (s.draws + 504) s
  exact ⟨_, timerSamples s.draws 504, exec_junk_eq s, length_timerSamples s.draws 504,
    fun k hk => timerSamples_getElem? s.draws hk, htransmits, hbuffer, hcontrol, hdiag, rfl⟩

end Sys2Proof.Machine

/-! ### Proofs of the big-numeral family (spec/44_big_numerals.md) -/

namespace Sys2Proof.Machine

/-! #### WBIGNUM and WBIGNUM.B as one drawing in either sink (R171, R172) -/

/-- The drawing of WBIGNUM and WBIGNUM.B: BAD_HALF, then `put_big` (R171, R172). -/
def putHalfGlyph (t : BigTables) (code half : Byte) (d : Drawing) : Drawing :=
  if half.toNat ≤ 1 then putBig t half.toNat d code else dropItem .badHalf d

section
variable {t : BigTables} {code half : Byte}

theorem putHalfGlyph_badHalf (hhalf : 1 < half.toNat) : putHalfGlyph t code half = dropItem .badHalf :=
  funext fun _ => if_neg (Nat.not_le.2 hhalf)

theorem putHalfGlyph_noMatch (hhalf : half.toNat ≤ 1) (hcode : code ∉ t.chars) :
    putHalfGlyph t code half = dropItem .noBigMatch := by
  funext d
  rw [putHalfGlyph, if_pos hhalf, putBig, (glyphBig_none t code half.toNat).2 hcode, emitOrDrop]

theorem putHalfGlyph_glyph {bytes : List Byte} (hhalf : half.toNat ≤ 1)
    (hglyph : glyphBig t code half.toNat = some bytes) : putHalfGlyph t code half = emit bytes := by
  funext d
  rw [putHalfGlyph, if_pos hhalf, putBig, hglyph, emitOrDrop]

end

section
variable {s : State} {t : BigTables} (hbig : s.cfg.big = some t)
include hbig

/-- With HAS_BIG, WBIGNUM draws at the cursor (R171). -/
theorem exec_wbignum_eq (code half : Byte) :
    exec (.wbignum code half) s = .next (drawDirect (putHalfGlyph t code half) s) := by
  show execWbignum code half s = _
  rw [execWbignum, hbig]
  by_cases hhalf : half.toNat ≤ 1
  · simp only [hhalf, drawDirect, putHalfGlyph, if_true]
  · simp only [hhalf, drawDirect, putHalfGlyph, if_false, dropItem]

/-- With HAS_BIG, WBIGNUM.B draws the same at its position (R172). -/
theorem exec_wbignumB_eq (col page code half : Byte) :
    exec (.wbignumB col page code half) s = .next (drawAt col page (putHalfGlyph t code half) s) := by
  show execWbignumB col page code half s = _
  rw [execWbignumB, drawAt, hbig]
  cases bufStart col page with
  | none => rfl
  | some bp =>
    by_cases hhalf : half.toNat ≤ 1
    · simp only [hhalf, drawBuffered, putHalfGlyph, if_true]
    · simp only [hhalf, drawBuffered, putHalfGlyph, if_false, dropItem]

/-! #### The two passes of a big string (R173, R174) -/

/-- With HAS_BIG, WBIGSTR is two positions, each with the bursts of its half after it, among two drops for
each unmatched byte (R173). -/
theorem exec_wbigstr_eq (x y : Byte) (text : List Byte) :
    exec (.wbigstr x y text) s =
      .next (txs (burst .cmd (positionBytes s.cfg.toParams x.toNat y.toNat) ++
          bigBursts t t.topOffset.val text ++
          burst .cmd (positionBytes s.cfg.toParams x.toNat (y.toNat + 1)) ++
          bigBursts t (1 - t.topOffset.val) text)
        (dropTimes .noBigMatch (2 * unmatched t text) s)) := by
  show execWbigstr x y text s = _
  rw [execWbigstr, hbig]
  simp only [drawDirect_putBigString, itemBursts_glyphBig, missing_glyphBig, setPosition_eq_txs,
    dropTimes_txs, dropTimes_add, txs_append, txs_cfg, dropTimes_cfg, topHalf, bottomHalf, Nat.two_mul]

/-- With HAS_BIG and both rows in the buffer, WBIGSTR.B is two runs of writes, among the same drops
(R174). -/
theorem exec_wbigstrB_eq {x y : Byte} {top bottom : FbIndex}
    (hstarts : bigBufStarts x y = some (top, bottom)) (text : List Byte) :
    exec (.wbigstrB x y text) s =
      .next (fbWrite bottom (bigColumnsOf t (1 - t.topOffset.val) text)
        (fbWrite top (bigColumnsOf t t.topOffset.val text)
          (dropTimes .noBigMatch (2 * unmatched t text) s))) := by
  show execWbigstrB x y text s = _
  rw [execWbigstrB, hbig, hstarts]
  simp only [drawBuffered_putBigString, itemBytes_glyphBig, missing_glyphBig, dropTimes_fbWrite,
    dropTimes_add, topHalf, bottomHalf, Nat.two_mul]

theorem exec_wbigstrB_bad {x y : Byte} (hstarts : bigBufStarts x y = none) (text : List Byte) :
    exec (.wbigstrB x y text) s = .next (drop .badBufPos s) := by
  show execWbigstrB x y text s = _
  rw [execWbigstrB, hbig, hstarts]

end

/-- The page of the second row is taken in the naturals and masked when it is sent (R173). -/
theorem positionBytes_secondRow (cfg : Config) (x y : Byte) :
    positionBytes cfg.toParams x.toNat (y.toNat + 1) =
      [cfg.pageSelBase ||| BitVec.ofNat 8 ((y.toNat + 1) % 8), cfg.colSelBase ||| (x &&& 0x7F#8)] := by
  have hmask : BitVec.ofNat 8 (y.toNat + 1) &&& 0x07#8 = BitVec.ofNat 8 ((y.toNat + 1) % 8) := by
    apply BitVec.eq_of_toNat_eq
    rw [mask3_toNat, BitVec.toNat_ofNat]
    omega
  rw [positionBytes, pageSelect, colSelect, hmask, BitVec.ofNat_toNat, BitVec.setWidth_eq]

theorem bigBufStarts_of_le {x y : Byte} (hx : x.toNat ≤ 83) (hy : y.toNat ≤ 4) :
    ∃ top bottom, bigBufStarts x y = some (top, bottom) ∧ top.val = y.toNat * 84 + x.toNat ∧
      bottom.val = (y.toNat + 1) * 84 + x.toNat :=
  ⟨_, _, dif_pos ⟨hx, hy⟩, rfl, rfl⟩

theorem bigBufStarts_none {x y : Byte} (hoff : 83 < x.toNat ∨ 4 < y.toNat) : bigBufStarts x y = none :=
  dif_neg (by omega)

/-! #### Without HAS_BIG (R175) -/

/-- Without HAS_BIG each of the four commands is one drop, whatever its operands (R175). -/
theorem exec_of_big_absent {s : State} (hbig : s.cfg.big = none) (a b c d : Byte) (text : List Byte) :
    ∀ i ∈ [Instr.wbignum a b, .wbigstr a b text, .wbignumB a b c d, .wbigstrB a b text],
      exec i s = .next (drop .featureAbsent s) := by
  simp only [List.forall_mem_cons, List.not_mem_nil, false_implies, implies_true, and_true]
  refine ⟨?_, ?_, ?_, ?_⟩
  · simp only [exec, execWbignum, hbig]
  · simp only [exec, execWbigstr, hbig]
  · simp only [exec, execWbignumB, hbig]
  · simp only [exec, execWbigstrB, hbig]

/-! #### The obligations -/

/-- Settles O38: the scan finds the least index and every read is inside its table
(`glyphBig_isBigGlyph`); it finds none exactly when the code is not there (`glyphBig_none`). -/
theorem bigGlyphIsTheFirstMatch : Obligations.BigGlyphIsTheFirstMatch :=
  fun _ t code half hbig hhalf =>
    ⟨fun _ hglyph => glyphBig_isBigGlyph hbig hhalf hglyph, glyphBig_none t code half⟩

/-- Settles O39: the three cases of the drawing (`putHalfGlyph`) at the panel. -/
theorem wbignumSendsTheHalfGlyph : Obligations.WbignumSendsTheHalfGlyph := by
  intro s t code half hbig
  have hexec := exec_wbignum_eq hbig code half
  refine ⟨rfl, fun hhalf => ?_, fun hhalf hcode => ?_, fun hhalf hcode => ?_⟩
  · rw [putHalfGlyph_badHalf hhalf] at hexec
    exact ⟨_, hexec, drop_onlyDrops .badHalf s⟩
  · rw [putHalfGlyph_noMatch hhalf hcode] at hexec
    exact ⟨_, hexec, drop_onlyDrops .noBigMatch s⟩
  · obtain ⟨bytes, hglyph⟩ := glyphBig_isSome t code half.toNat hcode
    rw [putHalfGlyph_glyph hhalf hglyph] at hexec
    exact ⟨_, bytes, hexec, glyphBig_isBigGlyph hbig hhalf hglyph, txs_onlyTransmits _ s⟩

/-- Settles O40: the position decides first, then the three cases of the drawing (`putHalfGlyph`) in the
buffer. -/
theorem wbignumBWritesTheHalfGlyph : Obligations.WbignumBWritesTheHalfGlyph := by
  intro s t col page code half hbig
  have hexec := exec_wbignumB_eq hbig col page code half
  refine ⟨rfl, fun hoff => ⟨_, hexec, drawAt_onlyDrops hoff _ s⟩, fun hcol hpage =>
    ⟨fun hhalf => ?_, fun hhalf hcode => ?_, fun hhalf hcode => ?_⟩⟩
  · rw [putHalfGlyph_badHalf hhalf] at hexec
    exact ⟨_, hexec, drawAt_onlyDrops_of_run hcol hpage fun _ => rfl⟩
  · rw [putHalfGlyph_noMatch hhalf hcode] at hexec
    exact ⟨_, hexec, drawAt_onlyDrops_of_run hcol hpage fun _ => rfl⟩
  · obtain ⟨bytes, hglyph⟩ := glyphBig_isSome t code half.toNat hcode
    rw [putHalfGlyph_glyph hhalf hglyph] at hexec
    exact ⟨_, bytes, hexec, glyphBig_isBigGlyph hbig hhalf hglyph,
      drawAt_onlyWrites hcol hpage fun bp => drawBuffered_emit bp bytes s⟩

/-- Settles O41: WBIGSTR is one sequence of events among its drops (`exec_wbigstr_eq`). -/
theorem wbigstrDrawsTwoRows : Obligations.WbigstrDrawsTwoRows := by
  intro s t x y text hbig
  have hexec := exec_wbigstr_eq hbig x y text
  rw [positionBytes_bytes, positionBytes_secondRow] at hexec
  exact ⟨_, hexec, txs_dropTimes_changes _ _ _ s⟩

/-- Settles O42: in range WBIGSTR.B is two runs of writes among its drops (`exec_wbigstrB_eq`), and the
state between them is that after the first run. -/
theorem wbigstrBWritesTwoRows : Obligations.WbigstrBWritesTwoRows := by
  intro s t x y text hbig
  refine ⟨rfl, fun hoff => ⟨_, exec_wbigstrB_bad hbig (bigBufStarts_none hoff) text,
    drop_onlyDrops .badBufPos s⟩, fun hx hy => ?_⟩
  obtain ⟨top, bottom, hstarts, htop, hbottom⟩ := bigBufStarts_of_le hx hy
  obtain ⟨hwrites, hdrops, htransport, hcontrol, hdraws⟩ := fbWrite_dropTimes_changes top
    (bigColumnsOf t t.topOffset.val text) .noBigMatch (2 * unmatched t text) s
  rw [← htop, ← hbottom]
  exact ⟨_, _, exec_wbigstrB_eq hbig hstarts text, hwrites, fbWrite_writesRun bottom _ _, hdrops,
    htransport, hcontrol, hdraws⟩

/-- Settles O43: the lengths do not depend on the configuration, and the feature is checked first
(`exec_of_big_absent`). -/
theorem bigCommandsDropWithoutTheFeature : Obligations.BigCommandsDropWithoutTheFeature :=
  fun s a b c d text hbig =>
    ⟨Laws.EncodedLength.wbignum a b, Laws.EncodedLength.wbigstr a b text,
      Laws.EncodedLength.wbignumB a b c d, Laws.EncodedLength.wbigstrB a b text,
      fun i hi => ⟨_, exec_of_big_absent hbig a b c d text i hi, drop_onlyDrops .featureAbsent s⟩⟩

end Sys2Proof.Machine

/-! ### Proofs of the page flush family (spec/45_page_flush.md) -/

namespace Sys2Proof.Machine

/-! #### RENDER on a page range and off it (R180, R181) -/

theorem rangeOk_iff (a b : Byte) : rangeOk a b = true ↔ a.toNat ≤ b.toNat ∧ b.toNat ≤ 5 := by
  simp only [rangeOk, Bool.and_eq_true, decide_eq_true_eq]
  omega

/-- RENDER of an accepted range: the position burst, one data burst of the range as read, and the draws the
read uses up (R180, log 4). -/
theorem exec_render_ok {a b : Byte} (h : rangeOk a b = true) (s : State) :
    exec (.render a b) s =
      .next { txs (burst .cmd (positionBytes s.cfg.toParams 0 a.toNat) ++
          burst .data (pageRangeBytes a b s).1) s with
        draws := (pageRangeBytes a b s).2 } := by
  rw [txs_append, ← setPosition_eq_txs, ← sendData_eq_txs]
  exact congrArg Host.Outcome.next (if_pos h)

theorem exec_render_bad {a b : Byte} (h : ¬ rangeOk a b = true) (s : State) :
    exec (.render a b) s = .next (drop .badRange s) :=
  congrArg Host.Outcome.next (if_neg h)

/-! #### Whole pages sent to the panel (R72, R183) -/

/-- `n` rows of data sent from the first column of page `y`, at a panel in the basic set: one run of writes,
and the cursor is at the first column `n` pages on, modulo 6 (R72; the wrap: log 9). -/
theorem panelReplay_pages (cfg : Config) (dc : Channel) (p : Panel) (hp : p.pext = some false) (y : Fin 6)
    {n : Nat} {bytes : List Byte} (hlen : bytes.length = n * 84) :
    ∃ y' : Fin 6, y'.val = (y.val + n) % 6 ∧
      panelReplay cfg.toParams dc p
          (burst .cmd (positionBytes cfg.toParams 0 y.val) ++ burst .data bytes) =
        { p with px := some 0, py := some y', pram := p.pram.writeRun (cursorIndex 0 y) bytes } := by
  obtain ⟨x', y', hrun, hcursor⟩ := dataRun_known { p with px := some 0, py := some y } 0 y rfl rfl bytes
  have hindex : y'.val * 84 + x'.val = (y.val * 84 + n * 84) % 504 := by
    have hval := congrArg Fin.val hcursor
    rwa [indexAfter_val, cursorIndex_home, hlen] at hval
  have hx : x' = 0 := Fin.ext (by rw [Fin.val_zero]; omega)
  refine ⟨y', by omega, ?_⟩
  rw [panelReplay_append, panelReplay_home cfg dc p hp, panelReplay_data, hrun, hx]

/-! #### The obligations -/

/-- Settles O44: an accepted range is sent as it is read (`exec_render_ok`, `fbReadRun_spec`), any other is
one drop. -/
theorem renderFlushesThePageRange : Obligations.RenderFlushesThePageRange := by
  intro s a b
  refine ⟨rfl, fun hab hb => ?_, fun hoff => ?_⟩
  · obtain ⟨hlen, hdraws, hbytes⟩ :=
      fbReadRun_spec s.fb s.draws (a.toNat * 84) ((b.toNat - a.toNat + 1) * 84)
    have hexec := exec_render_ok ((rangeOk_iff a b).2 ⟨hab, hb⟩) s
    rw [positionBytes_home s.cfg a (by omega)] at hexec
    obtain ⟨htransmits, hbuffer, hcontrol, hdiag⟩ := txs_withDraws_changes
      (burst .cmd [s.cfg.pageSelBase ||| a, s.cfg.colSelBase ||| 0x00#8] ++
        burst .data (pageRangeBytes a b s).1) (pageRangeBytes a b s).2 s
    exact ⟨_, (pageRangeBytes a b s).1, hexec, htransmits, hlen, fun k v hk => hbytes k v (hlen ▸ hk),
      hbuffer, hcontrol, hdiag, hdraws⟩
  · have hbad : ¬ rangeOk a b = true := by
      rw [rangeOk_iff]
      omega
    exact ⟨_, exec_render_bad hbad s, drop_onlyDrops .badRange s⟩

/-- Settles O45: on the range as `render_written_mirrors` says; the rest of the panel RAM and the cursor are
those of a run of whole pages (`panelReplay_pages`). -/
theorem renderCopiesThePagesToThePanel : Obligations.RenderCopiesThePagesToThePanel := by
  intro s a b hab hb hp hw
  obtain ⟨t, ht, -, hmirror⟩ := render_written_mirrors hab hb hp hw
  obtain ⟨y, hy⟩ : ∃ y : Fin 6, y.val = a.toNat := ⟨⟨a.toNat, by omega⟩, rfl⟩
  obtain ⟨y', hy', hpanel⟩ := panelReplay_pages s.cfg s.dc s.panel hp y
    (length_storedBytes s.fb (a.toNat * 84) ((b.toNat - a.toNat + 1) * 84))
  rw [hy] at hpanel
  have hexec := ht.symm.trans (exec_render_written hab hb hw)
  have htpanel := (congrArg State.panel (Host.Outcome.next.inj hexec)).trans ((txs_panel _ s).trans hpanel)
  refine ⟨t, ht, hmirror, fun i hout => ?_, by rw [htpanel], y', by rw [htpanel], by omega⟩
  rw [htpanel]
  refine Memory.read_writeRun_other _ _ _ i fun k hk => ?_
  rw [length_storedBytes] at hk
  rw [cursorIndex_home]
  omega

/-- Settles O46: what RENDER of written pages sends depends on the configuration and the framebuffer alone
(`exec_render_written`), and the first RENDER keeps both; a bad range sends nothing, twice. -/
theorem renderTwiceSendsTheSame : Obligations.RenderTwiceSendsTheSame := by
  intro s a b hw
  by_cases hok : rangeOk a b = true
  · obtain ⟨hab, hb⟩ := (rangeOk_iff a b).1 hok
    have hagain := exec_render_written hab hb
      (s := txs (burst .cmd (positionBytes s.cfg.toParams 0 a.toNat) ++
        burst .data (storedBytes s.fb (a.toNat * 84) ((b.toNat - a.toNat + 1) * 84))) s)
      (by rwa [txs_fb])
    rw [txs_cfg, txs_fb] at hagain
    exact ⟨_, _, _, exec_render_written hab hb hw, hagain, txs_trace _ s, txs_trace _ _⟩
  · exact ⟨_, _, [], exec_render_bad hok s, exec_render_bad hok _, (List.append_nil _).symm,
      (List.append_nil _).symm⟩

end Sys2Proof.Machine

/-! ### Proofs of the whole-machine rules on drops and stops (spec/60_exceptions.md) -/

namespace Sys2Proof.Machine

/-! #### The diagnostic channel decides nothing (R196) -/

section
variable {s u : State} (h : SameButDiag s u)
include h

/-- States that agree but for the diagnostic channel give every command the same effect: HAS_DIAG is all
the parameters differ in, and no effect depends on it (`effectOf_diag`). -/
theorem effectOf_sameButDiag (i : Instr) :
    effectOf u.cfg.toParams u.fb u.draws i = effectOf s.cfg.toParams s.fb s.draws i := by
  obtain ⟨hcfg, hfb, -, -, -, -, -, -, -, -, -, hdraws⟩ := h
  rw [hcfg, hfb, hdraws, effectOf_diag]

theorem fetch_sameButDiag : fetch u = fetch s := by
  obtain ⟨-, -, -, -, hheld, hhost, -⟩ := h
  rw [fetch, fetch, portBytes, portBytes, hheld, hhost]

/-- One effect keeps the agreement: its drops touch the diagnostic registers alone, and the panel does not
see HAS_DIAG (`panelReplay_diag`). -/
theorem apply_sameButDiag (e : Effect) : SameButDiag (e.apply s) (e.apply u) := by
  obtain ⟨hcfg, hfb, hinited, hbusy, hheld, hhost, hdc, hce, hrst, htrace, hpanel, -⟩ := h
  have hreplay : (e.apply u).panel = (e.apply s).panel := by
    rw [apply_panel, apply_panel, hcfg, hdc, hpanel, panelReplay_diag]
  simp [SameButDiag, -apply_panel, hreplay, hfb, hinited, hbusy, hheld, hhost, hdc, hce, hrst, htrace, ← hcfg]

/-- A drop keeps the agreement, counted on one side or on both or on neither (R192). -/
theorem drop_sameButDiag (c : Cause) : SameButDiag (drop c s) (drop c u) := h

theorem acceptCommand_sameButDiag (rest : List Byte) :
    SameButDiag (acceptCommand rest s) (acceptCommand rest u) := by
  obtain ⟨hcfg, hfb, hinited, -, -, -, htransport⟩ := h
  exact ⟨hcfg, hfb, hinited, rfl, rfl, rfl, htransport⟩

theorem completeCommand_sameButDiag : SameButDiag (completeCommand s) (completeCommand u) := by
  obtain ⟨hcfg, hfb, hinited, -, hdecoder⟩ := h
  exact ⟨hcfg, hfb, hinited, rfl, hdecoder⟩

theorem holdPartial_sameButDiag : SameButDiag (holdPartial s) (holdPartial u) := by
  obtain ⟨hcfg, hfb, hinited, hbusy, hheld, hhost, htransport⟩ := h
  exact ⟨hcfg, hfb, hinited, hbusy, congrArg₂ (· ++ ·) hheld hhost, rfl, htransport⟩

/-- A command answers alike from states that agree but for the diagnostic channel. -/
theorem exec_sameButDiag (i : Instr) : OutcomesSameButDiag (exec i s) (exec i u) := by
  rw [exec_eq_effect, exec_eq_effect, effectOf_sameButDiag h]
  cases effectOf s.cfg.toParams s.fb s.draws i with
  | none => rfl
  | some e => exact apply_sameButDiag h e

end

/-- Completion keeps the agreement of outcomes. -/
theorem completeOutcome_sameButDiag {o p : Host.Outcome State Fault Refusal} (h : OutcomesSameButDiag o p) :
    OutcomesSameButDiag (completeOutcome o) (completeOutcome p) := by
  cases o <;> cases p
  case next.next s u => exact completeCommand_sameButDiag h
  all_goals exact h

/-- A step answers alike from states that agree but for the diagnostic channel, whatever the decoder finds. -/
theorem step_sameButDiag {s u : State} (h : SameButDiag s u) : OutcomesSameButDiag (step s) (step u) := by
  have hfetch := fetch_sameButDiag h
  have hbusy : u.busy = s.busy := by
    obtain ⟨-, -, -, hbusy, -⟩ := h
    exact hbusy
  cases hb : s.busy with
  | true =>
    rw [step_of_busy hb, step_of_busy (hbusy.trans hb)]
    exact h
  | false =>
    have hbu := hbusy.trans hb
    cases hf : fetch s with
    | instr i rest =>
      rw [step_of_instr hb hf, step_of_instr hbu (hfetch.trans hf)]
      exact completeOutcome_sameButDiag (exec_sameButDiag (acceptCommand_sameButDiag h rest) i)
    | reserved op rest =>
      rw [step_of_reserved hb hf, step_of_reserved hbu (hfetch.trans hf)]
      exact completeCommand_sameButDiag (drop_sameButDiag (acceptCommand_sameButDiag h rest) .unknownOp)
    | incomplete =>
      rw [step_of_incomplete hb hf, step_of_incomplete hbu (hfetch.trans hf)]
      exact holdPartial_sameButDiag h

/-- The simulation over any number of steps: agreement is kept, and one run stops where the other does. -/
theorem run_sameButDiag (n : Nat) {s u : State} (h : SameButDiag s u) :
    OutcomesSameButDiag (Host.Core.run core n s) (Host.Core.run core n u) := by
  induction n generalizing s u with
  | zero => exact h
  | succ n ih =>
    have hstep : OutcomesSameButDiag (core.step s) (core.step u) := step_sameButDiag h
    simp only [Host.Core.run]
    cases hs : core.step s <;> cases hu : core.step u <;> rw [hs, hu] at hstep
    case next.next => exact ih hstep
    case fault.fault | refused.refused => exact hstep
    all_goals exact False.elim hstep

/-- Drops lower no count and turn no recorded cause back to none (R26, R192). -/
theorem Drops.keepsRecord {s t : State} {c : Cause} {n : Nat} (h : Drops s t c n) :
    s.dropCnt.toNat ≤ t.dropCnt.toNat ∧ (s.lastDrop ≠ 0 → t.lastDrop ≠ 0) := by
  obtain ⟨hcounted, hquiet⟩ := h
  cases hd : s.cfg.hasDiag with
  | false =>
    obtain ⟨hcnt, hlast⟩ := hquiet hd
    exact ⟨hcnt ▸ Nat.le_refl _, fun hne => hlast ▸ hne⟩
  | true =>
    obtain ⟨hcnt, hlast⟩ := hcounted hd
    refine ⟨by have := s.dropCnt.isLt; omega, fun hne => ?_⟩
    rw [hlast]
    split
    · exact hne
    · exact causeCode_ne_zero c

/-- Settles O53: the agreement is a simulation (`run_sameButDiag`), and a step does nothing to the registers
but drop (`step_changes`). -/
theorem diagnosticChannelIsNeutral : Obligations.DiagnosticChannelIsNeutral := by
  refine ⟨fun n s u h => run_sameButDiag n h, fun s t h => ?_⟩
  obtain ⟨events, runs, c, n, ch⟩ := step_changes h
  exact ch.drops.keepsRecord

/-! #### What stops the machine (R190, log 8) -/

theorem nIcons_le_of_not_iconOk {p : Params} {ordinal : Byte} (h : ¬ iconOk p ordinal = true) :
    p.nIcons ≤ ordinal.toNat := by
  simpa [iconOk] using h

/-- A command has no effect only where it would read an icon outside the table (R58, R144). -/
theorem effectOf_eq_none {p : Params} {fb : Memory} {draws : Nat} {i : Instr}
    (h : effectOf p fb draws i = none) :
    p.nIcons ≤ (ordinalOf i).toNat ∧
      (i = .wicon (ordinalOf i) ∨ ∃ col page, i = .wiconB col page (ordinalOf i)) := by
  cases i with
  | wicon ordinal =>
    simp only [effectOf] at h
    split at h
    · cases h
    · next hicon => exact ⟨nIcons_le_of_not_iconOk hicon, .inl rfl⟩
  | wiconB col page ordinal =>
    simp only [effectOf] at h
    split at h
    · cases h
    · next hicon =>
      have hout : ¬ iconOk p ordinal = true := fun hok => hicon (by rw [hok, Bool.true_or])
      exact ⟨nIcons_le_of_not_iconOk hout, .inr ⟨col, page, rfl⟩⟩
  | _ => cases h

/-- Settles O49: a command with an effect answers the state it makes, and one without stops at the icon it
names (`effectOf_eq_none`). -/
theorem onlyAnIconOutsideTheTableStops : Obligations.OnlyAnIconOutsideTheTableStops := by
  intro i s
  cases he : effectOf s.cfg.toParams s.fb s.draws i with
  | some e => exact .inl ⟨e.apply s, exec_of_effect he⟩
  | none =>
    obtain ⟨hout, hicon⟩ := effectOf_eq_none he
    exact .inr ⟨ordinalOf i, hout, by rw [exec_eq_effect, he], hicon⟩

end Sys2Proof.Machine
